-- ==== Sys2Proof/Word.lean ====
section
/-! DEFINITION. The block's words: the command word, bytes, pin identifiers and one-bit levels (spec/00_scope.md R10, R13, R15). -/

namespace Sys2Proof

/-- A command word, and the response data: `CMD_W` = `SAMPLE_W` = 32 bits (R10). -/
abbrev Word := BitVec 32

/-- One assembled byte: `BYTE_BITS` = 8 (R9). -/
abbrev Byte := BitVec 8

/-- A gain as the number itself: `GAIN_W` = 8 bits, unsigned (R10, R24). -/
abbrev Gain := BitVec 8

/-- A pin identifier: `PIN_W` = 8 bits, every value legal, never interpreted (R10, R22, R61). -/
abbrev Pin := BitVec 8

/-- A 24-bit frame: `FRAME_BITS` = 24 (R9, R35). -/
abbrev Frame := BitVec 24

/-- A response status: `STATUS_W` = 4 bits (R10, R38). -/
abbrev StatusCode := BitVec 4

/-- A level on a pin: true is high, 1; false is low, 0 (R15, R64). -/
abbrev Level := Bool

end Sys2Proof
end

