-- ==== Sys2Proof/Syntax.lean ====
section
/-! DEFINITION. The nine host commands with their operands (spec/30_encoding.md R96 to R104, R107), one constructor per row of the opcode table. -/

namespace Sys2Proof

/-- An input channel of the chip, A or B (R25). -/
inductive Channel where
  | a
  | b
deriving DecidableEq, Repr

/-- An order setting, of bits in a byte or of bytes in a frame (R26, R27). -/
inductive Order where
  | msbFirst
  | lsbFirst
deriving DecidableEq, Repr

/-- A command (R104). Operands are as R100 gives them: pins and gain are 8-bit numbers, illegal gains included. -/
inductive Instr where
  /-- `construct`, op 0x1, format I (R96, R170). -/
  | init (clockPin dataPin : Pin) (gain : Gain) (channel : Channel) (bitOrder byteOrder : Order)
  /-- `setGain`, op 0x2, format G (R97, R171). -/
  | setgain (gain : Gain)
  /-- `getGain`, op 0x3, format N (R99, R172). -/
  | getgain
  /-- `setChannelSelect`, op 0x4, format C (R98, R173). -/
  | setchan (channel : Channel)
  /-- `getChannelSelect`, op 0x5, format N (R99, R174). -/
  | getchan
  /-- `isDataReady`, op 0x6, format N (R99, R191). -/
  | rdy
  /-- `readRawSample`, op 0x7, format N (R99, R192). -/
  | rdraw
  /-- `powerDown`, op 0x8, format N (R99, R200). -/
  | pwrdn
  /-- `powerUp`, op 0x9, format N (R99, R201). -/
  | pwrup
deriving DecidableEq, Repr

/-- The mnemonic of a command, as the opcode table spells it (R104). -/
def Instr.mnemonic : Instr → String
  | .init _ _ _ _ _ _ => "INIT"
  | .setgain _ => "SETGAIN"
  | .getgain => "GETGAIN"
  | .setchan _ => "SETCHAN"
  | .getchan => "GETCHAN"
  | .rdy => "RDY"
  | .rdraw => "RDRAW"
  | .pwrdn => "PWRDN"
  | .pwrup => "PWRUP"

/-- A channel in the assembler syntax (R107). -/
def Channel.asm : Channel → String
  | .a => "A"
  | .b => "B"

/-- An order in the assembler syntax (R107). -/
def Order.asm : Order → String
  | .msbFirst => "MSB"
  | .lsbFirst => "LSB"

/-- The operands of a command in the assembler syntax, from the high bits of its format to the low (R107). -/
def Instr.operandsAsm : Instr → List String
  | .init c d g ch bo yo => [toString c.toNat, toString d.toNat, toString g.toNat, ch.asm, bo.asm, yo.asm]
  | .setgain g => [toString g.toNat]
  | .getgain => []
  | .setchan ch => [ch.asm]
  | .getchan => []
  | .rdy => []
  | .rdraw => []
  | .pwrdn => []
  | .pwrup => []

end Sys2Proof
end

