-- ==== Sys2Proof/WellFormed.lean ====
section
/-! DEFINITION. What a well-formed command and a well-formed command word are (spec/30_encoding.md R95 to R105). -/

namespace Sys2Proof

/-- One row of the opcode map: a word `w` is the command exactly when `w &&& mask = value` (R104). -/
structure OpcodeRow where
  mnemonic : String
  value : Word
  mask : Word
deriving DecidableEq, Repr

/-- The opcode map, match and mask as R104 prints them. -/
def opcodeRows : List OpcodeRow :=
  [⟨"INIT", 0x10000000#32, 0xF0000001#32⟩,
   ⟨"SETGAIN", 0x20000000#32, 0xFFFFFF00#32⟩,
   ⟨"GETGAIN", 0x30000000#32, 0xFFFFFFFF#32⟩,
   ⟨"SETCHAN", 0x40000000#32, 0xFFFFFFFE#32⟩,
   ⟨"GETCHAN", 0x50000000#32, 0xFFFFFFFF#32⟩,
   ⟨"RDY", 0x60000000#32, 0xFFFFFFFF#32⟩,
   ⟨"RDRAW", 0x70000000#32, 0xFFFFFFFF#32⟩,
   ⟨"PWRDN", 0x80000000#32, 0xFFFFFFFF#32⟩,
   ⟨"PWRUP", 0x90000000#32, 0xFFFFFFFF#32⟩]

/-- The word `w` belongs to the row `r`. -/
def OpcodeRow.accepts (r : OpcodeRow) (w : Word) : Bool := w &&& r.mask == r.value

/-- A word is well formed when some row of the opcode map accepts it; every other word is illegal (R104, R105). -/
def wellFormedWord (w : Word) : Bool := opcodeRows.any (fun r => r.accepts w)

/-- The operands of a command lie in the ranges its format can hold (R100, R107). The operand types already see to
it: a gain or a pin outside 0 to 255 "cannot be expressed" (R100), so the check refuses no term of `Instr`. What can
be ill formed is a word: `wellFormedWord`. The VALUE of a gain is no matter of form (R103). -/
def Instr.wellFormed : Instr → Bool
  | .init c d g _ _ _ => decide (c.toNat ≤ 255) && decide (d.toNat ≤ 255) && decide (g.toNat ≤ 255)
  | .setgain g => decide (g.toNat ≤ 255)
  | .getgain => true
  | .setchan _ => true
  | .getchan => true
  | .rdy => true
  | .rdraw => true
  | .pwrdn => true
  | .pwrup => true

end Sys2Proof
end

