-- ==== Sys2Proof/Decode.lean ====
section
/-! DEFINITION. The decoder of command words and the encoder (spec/30_encoding.md R95 to R105). -/

namespace Sys2Proof

/-- Why a word is illegal (R103, R105). -/
inductive IllegalWord where
  /-- op 0x0 or 0xA to 0xF: no command has it. -/
  | noCommand
  /-- A reserved bit of the command's format is 1. -/
  | reservedBit
deriving DecidableEq, Repr

/-- What the decoder answers for a word (R103). -/
inductive Decoded where
  | command (i : Instr)
  | illegal (why : IllegalWord)
deriving DecidableEq, Repr

/-- The channel's code: A = 0, B = 1 (R100). -/
def Channel.code : Channel → BitVec 1
  | .a => 0#1
  | .b => 1#1

/-- The channel a bit stands for (R100). -/
def channelOfBit (b : Bool) : Channel := if b then .b else .a

/-- The order's code: MSB-first = 0, LSB-first = 1 (R100). -/
def Order.code : Order → BitVec 1
  | .msbFirst => 0#1
  | .lsbFirst => 1#1

/-- The order a bit stands for (R100). -/
def orderOfBit (b : Bool) : Order := if b then .lsbFirst else .msbFirst

/-- op = word[31:28] (R95). -/
def opField (w : Word) : BitVec 4 := w.extractLsb' 28 4

/-- clockPin = word[27:20] (R96). -/
def clockPinField (w : Word) : Pin := w.extractLsb' 20 8

/-- dataPin = word[19:12] (R96). -/
def dataPinField (w : Word) : Pin := w.extractLsb' 12 8

/-- INIT's gain = word[11:4] (R96). -/
def initGainField (w : Word) : Gain := w.extractLsb' 4 8

/-- INIT's channel = word[3] (R96). -/
def initChannelField (w : Word) : Channel := channelOfBit (w.getLsbD 3)

/-- bitOrder = word[2] (R96). -/
def bitOrderField (w : Word) : Order := orderOfBit (w.getLsbD 2)

/-- byteOrder = word[1] (R96). -/
def byteOrderField (w : Word) : Order := orderOfBit (w.getLsbD 1)

/-- SETGAIN's gain = word[7:0] (R97). -/
def gainField (w : Word) : Gain := w.extractLsb' 0 8

/-- SETCHAN's channel = word[0] (R98). -/
def channelField (w : Word) : Channel := channelOfBit (w.getLsbD 0)

/-- The command, provided its format's reserved bits are 0 (R95, R103). -/
def unlessReserved (reservedZero : Bool) (i : Instr) : Decoded :=
  if reservedZero then .command i else .illegal .reservedBit

/-- The decoder: total on 32-bit words (R103). -/
def decode (w : Word) : Decoded :=
  match (opField w).toNat with
  | 1 => unlessReserved (!w.getLsbD 0)
      (.init (clockPinField w) (dataPinField w) (initGainField w) (initChannelField w) (bitOrderField w)
        (byteOrderField w))
  | 2 => unlessReserved (w.extractLsb' 8 20 == 0#20) (.setgain (gainField w))
  | 3 => unlessReserved (w.extractLsb' 0 28 == 0#28) .getgain
  | 4 => unlessReserved (w.extractLsb' 1 27 == 0#27) (.setchan (channelField w))
  | 5 => unlessReserved (w.extractLsb' 0 28 == 0#28) .getchan
  | 6 => unlessReserved (w.extractLsb' 0 28 == 0#28) .rdy
  | 7 => unlessReserved (w.extractLsb' 0 28 == 0#28) .rdraw
  | 8 => unlessReserved (w.extractLsb' 0 28 == 0#28) .pwrdn
  | 9 => unlessReserved (w.extractLsb' 0 28 == 0#28) .pwrup
  | _ => .illegal .noCommand

/-- The value `v` placed with its bit 0 at bit `lo` of the word. -/
def placeAt {n : Nat} (lo : Nat) (v : BitVec n) : Word := v.setWidth 32 <<< lo

/-- The encoder, from the four formats; reserved bits are 0 (R96 to R99). -/
def encode : Instr → Word
  | .init c d g ch bo yo =>
    placeAt 28 0x1#4 ||| placeAt 20 c ||| placeAt 12 d ||| placeAt 4 g ||| placeAt 3 ch.code ||| placeAt 2 bo.code |||
      placeAt 1 yo.code
  | .setgain g => placeAt 28 0x2#4 ||| placeAt 0 g
  | .getgain => placeAt 28 0x3#4
  | .setchan ch => placeAt 28 0x4#4 ||| placeAt 0 ch.code
  | .getchan => placeAt 28 0x5#4
  | .rdy => placeAt 28 0x6#4
  | .rdraw => placeAt 28 0x7#4
  | .pwrdn => placeAt 28 0x8#4
  | .pwrup => placeAt 28 0x9#4

/-- The command of a decoded word, if it is one. -/
def Decoded.toOption : Decoded → Option Instr
  | .command i => some i
  | .illegal _ => none

/-- The command the decoder reads from a table row's bits `w` (bit 0 the least significant). Command words reach the
block whole, 32 bits at once, so there is no byte order to apply (R70); bits at and above `nbits` are 0. -/
def decodeTableWord (nbits w : Nat) : Option Instr :=
  (decode (BitVec.ofNat 32 (w % 2 ^ nbits))).toOption

end Sys2Proof
end

