-- ==== Sys2Proof/Config.lean ====
section
/-! DEFINITION. What is fixed for the hardware, the parameters, and the environment's free port samples (spec/00_scope.md R9 to R12, spec/10_state.md R48). -/

namespace Sys2Proof

/-- The block's input ports as they stand at one step (R48). -/
structure PortSample where
  /-- `rst`: the host asserts reset. -/
  rst : Bool
  /-- `cmd_valid`: the host offers `cmdWord`. -/
  cmdValid : Bool
  /-- `cmd_word`. -/
  cmdWord : Word
  /-- `dout`: the level a PinRead of this step returns. -/
  dout : Level
  /-- `io_fail`: the pin event of this step fails. -/
  ioFail : Bool
deriving DecidableEq, Repr, Inhabited

/-- FREE VALUE: the port samples a run meets once the listed ones are used up. No body: nothing can be proved of any
of them, so the host and the chip stay free (R50, R66, R281). Log 2. -/
opaque Config.freePorts : Nat → PortSample

/-- `IO_CAN_FAIL` (R11): "the safe model takes it true". `io_fail` "tied to 0 when IO_CAN_FAIL is false" (R48) is then a
premise on the port samples, so the other value is covered too. Log 3. -/
def Config.ioCanFail : Bool := true

/-- `ACQ_WAIT` (R10, R190): "this hardware takes ACQ_WAIT true". -/
def Config.acqWait : Bool := true

/-- `FRAME_BITS` (R9). -/
def Config.frameBits : Nat := 24

/-- `BYTE_BITS` (R9). -/
def Config.byteBits : Nat := 8

/-- `FRAME_BYTES` (R9). -/
def Config.frameBytes : Nat := 3

/-- `MAX_PULSES` (R9). -/
def Config.maxPulses : Nat := 27

/-- `SAMPLE_MIN` (R9). -/
def Config.sampleMin : Int := -8388608

/-- `SAMPLE_MAX` (R9). -/
def Config.sampleMax : Int := 8388607

/-- `T_PD_MIN` in microseconds, a property of the chip (R9, R54): used only in the premises `Safety.powerDownWaited` and
`Safety.sckHighBelowThreshold`. Log 11. -/
def Config.powerDownMicros : Nat := 60

/-- `T_SCK_HIGH` in nanoseconds, left open (R11): used only in the premise `Safety.sckHighBelowThreshold`. Log 11. -/
opaque Config.sckHighNanos : Nat

/-- `T_SCK_LOW` in nanoseconds, left open (R11). No rule depends on it. Log 11. -/
opaque Config.sckLowNanos : Nat

/-- `T_SAMPLE` in nanoseconds, left open (R11). No rule depends on it. Log 11. -/
opaque Config.sampleNanos : Nat

end Sys2Proof
end

