-- ==== Sys2Proof/Machine/State.lean ====
section
/-! DEFINITION. The state of the block as plain data, its reset value, and the reasons a step can stop (spec/10_state.md). -/

namespace Sys2Proof.Machine

/-- LIFE (R21). -/
inductive Life where
  | unconfigured
  | configured
deriving DecidableEq, Repr

/-- PWR: what the block last commanded (R28). -/
inductive Power where
  | active
  | poweredDown
deriving DecidableEq, Repr

/-- PH: the phase of the sequencer (R31, R211). -/
inductive Phase where
  /-- No command in progress. -/
  | idle
  /-- INIT: configure the clock pin as output. -/
  | iOut
  /-- INIT: configure the data pin as input. -/
  | iIn
  /-- INIT: write the clock pin low. -/
  | iWr
  /-- RDY: read the data pin. -/
  | qRd
  /-- PWRDN: write the clock pin high. -/
  | dWr
  /-- PWRUP: write the clock pin low. -/
  | uWr
  /-- Frame read: poll the data pin until low. -/
  | poll
  /-- Bit slot: rising edge. -/
  | ckHi
  /-- Bit slot: falling edge. -/
  | ckLo
  /-- Bit slot: sample the data pin. -/
  | smp
deriving DecidableEq, Repr

/-- BYTES[0..2], in the order read (R34). -/
structure ByteSeq where
  b0 : Byte
  b1 : Byte
  b2 : Byte
deriving DecidableEq, Repr

/-- One pin event of the trace; the failed ones are R66's `!` marks (R16, R66). -/
inductive PinEvent where
  /-- `CO(p)`. -/
  | cfgOut (p : Pin)
  /-- `CI(p)`. -/
  | cfgIn (p : Pin)
  /-- `W(p,l)`. -/
  | write (p : Pin) (l : Level)
  /-- `R(p)=l`. -/
  | read (p : Pin) (l : Level)
  /-- `CO(p)!`. -/
  | cfgOutFailed (p : Pin)
  /-- `CI(p)!`. -/
  | cfgInFailed (p : Pin)
  /-- `W(p,l)!`. -/
  | writeFailed (p : Pin) (l : Level)
  /-- `R(p)!`. -/
  | readFailed (p : Pin)
deriving DecidableEq, Repr

/-- One response: status and data (R101). -/
structure Response where
  status : StatusCode
  data : Word
deriving DecidableEq, Repr

/-- Everything the spec gives the machine: the registers of R20, the observable history (R16, R282), and the
environment as plain data. -/
structure State where
  /-- LIFE (R21). -/
  life : Life
  /-- CLKPIN (R22). -/
  clkpin : Pin
  /-- DATPIN (R23). -/
  datpin : Pin
  /-- GAIN (R24). -/
  gain : Gain
  /-- CHAN (R25). -/
  chan : Channel
  /-- BITORD (R26). -/
  bitord : Order
  /-- BYTEORD (R27). -/
  byteord : Order
  /-- PWR (R28). -/
  pwr : Power
  /-- SCK (R29). -/
  sck : Level
  /-- CMD (R30). -/
  cmd : Word
  /-- PH (R31). -/
  ph : Phase
  /-- PCNT (R32). -/
  pcnt : BitVec 5
  /-- ACC (R33). -/
  acc : Byte
  /-- BYTES (R34). -/
  bytes : ByteSeq
  /-- FRAME (R35). -/
  frame : Frame
  /-- SAMPLE (R36). -/
  sample : Word
  /-- RSP_VALID (R37). -/
  rspValid : Bool
  /-- RSP_STATUS (R38). -/
  rspStatus : StatusCode
  /-- RSP_DATA (R39). -/
  rspData : Word
  /-- The pin trace, oldest event first (R16, R76). -/
  trace : List PinEvent
  /-- The responses of the run, oldest first (R282). -/
  responses : List Response
  /-- The model's own: the port samples still to come, one a step. Log 2. -/
  inputs : List PortSample
  /-- The model's own: how many free port samples have been used. Log 2. -/
  drawn : Nat
deriving DecidableEq, Repr

/-- The machine right after reset: LIFE, PWR, SCK, PH and RSP_VALID as R20 gives them, the trace empty (R262). R20
gives every other register no value; the zeros here are DESIGN CHOICE, unsafe, log 1. -/
def State.reset : State where
  life := .unconfigured
  clkpin := 0#8
  datpin := 0#8
  gain := 0#8
  chan := .a
  bitord := .msbFirst
  byteord := .msbFirst
  pwr := .active
  sck := false
  cmd := 0#32
  ph := .idle
  pcnt := 0#5
  acc := 0#8
  bytes := ⟨0#8, 0#8, 0#8⟩
  frame := 0#24
  sample := 0#32
  rspValid := false
  rspStatus := 0#4
  rspData := 0#32
  trace := []
  responses := []
  inputs := []
  drawn := 0

/-- Why a step stops with a fault. Neither is the spec's: both guard states that no run reaches. Log 6. -/
inductive Fault where
  /-- Raised by the SMP phase when (CHAN, GAIN) is outside the pulse table, where `total` is undefined (R18). Safe:
  R42 says no run reaches it. -/
  | noPulseCount
  /-- Raised by the end of a frame read when CMD is neither RDRAW nor PWRUP, for which R221 gives no effect. Safe: only
  those two start a frame read (R212, R224). -/
  | frameWithoutReader
deriving DecidableEq, Repr

/-- Why an instruction is refused. Nothing is refused in this model. -/
inductive Refusal where
  /-- Raised by an arm of `exec` whose instruction has no meaning yet; no arm does. Safe. -/
  | notModelled (mnemonic : String)
deriving DecidableEq, Repr

end Sys2Proof.Machine
end

