-- ==== Sys2Proof/Machine/Operands.lean ====
section
/-! DEFINITION. The pulse table, and every value the data path computes: byte steps, packing, decode (spec/41_assembly.md, spec/42_decode.md, spec/30_encoding.md R93, R94). -/

namespace Sys2Proof.Machine

/-- `GAIN_SET` = {32, 64, 128} (R9, R24). -/
def gainInSet (g : Gain) : Bool := g == 32#8 || g == 64#8 || g == 128#8

/-- `idle(c, g)`: the idle pulses after the 24 data slots, undefined off the table (R18, R93, R145). -/
def idlePulses : Channel → Gain → Option Nat
  | .a, g => if g = 128#8 then some 1 else if g = 64#8 then some 3 else none
  | .b, g => if g = 32#8 then some 2 else none

/-- `valid(c, g)`: the pair is in the pulse table (R18). -/
def validPair (c : Channel) (g : Gain) : Bool := (idlePulses c g).isSome

/-- `total(c, g) = 24 + idle(c, g)` (R18). -/
def totalPulses (c : Channel) (g : Gain) : Option Nat := (idlePulses c g).map (Config.frameBits + ·)

/-- A level as one bit of a byte: high is 1, not inverted (R121). -/
def levelByte (b : Level) : Byte := (BitVec.ofBool b).setWidth 8

/-- `msb_step` (R141). -/
def msbStep (acc : Byte) (b : Level) : Byte := (acc <<< 1) ||| levelByte b

/-- `lsb_step` (R142). -/
def lsbStep (acc : Byte) (b : Level) : Byte := (acc >>> 1) ||| (levelByte b <<< 7)

/-- The step of readByte under a bit order (R140). -/
def orderStep : Order → Byte → Level → Byte
  | .msbFirst => msbStep
  | .lsbFirst => lsbStep

/-- `BYTES[j] <- v` (R34). The index is below 3 wherever it is used (R220). -/
def ByteSeq.set (bs : ByteSeq) (j : Nat) (v : Byte) : ByteSeq :=
  match j with
  | 0 => { bs with b0 := v }
  | 1 => { bs with b1 := v }
  | 2 => { bs with b2 := v }
  | _ => bs

/-- `pack`: byte P0 in bits 23 to 16, P1 in 15 to 8, P2 in 7 to 0, the sequence reversed first for LSB-first (R147,
conflict C1). -/
def packBytes (p0 p1 p2 : Byte) : Frame :=
  (p0.setWidth 24 <<< 16) ||| (p1.setWidth 24 <<< 8) ||| p2.setWidth 24

/-- `pack(BYTES[0], BYTES[1], BYTES[2], order)` (R147). -/
def pack (bs : ByteSeq) : Order → Frame
  | .msbFirst => packBytes bs.b0 bs.b1 bs.b2
  | .lsbFirst => packBytes bs.b2 bs.b1 bs.b0

/-- `decode` of a frame as an integer: `-(frame & 0x800000) + (frame & 0x7FFFFF)`, no wrap (R160). -/
def signedValue (f : Frame) : Int :=
  -((f &&& 0x800000#24).toNat : Int) + ((f &&& 0x7FFFFF#24).toNat : Int)

/-- The SAMPLE of R160: the signed value as a 32-bit pattern. -/
def decodeFrame (f : Frame) : Word := BitVec.ofInt 32 (signedValue f)

/-- `sext_32(FRAME)`, the SAMPLE of R221. -/
def sextFrame (f : Frame) : Word := f.signExtend 32

/-- R94's table: where in FRAME the bit sampled in data slot `k` lands. -/
def bitPosition (bitOrder byteOrder : Order) (k : Nat) : Nat :=
  match bitOrder, byteOrder with
  | .msbFirst, .msbFirst => (16 - 8 * (k / 8)) + (7 - k % 8)
  | .lsbFirst, .msbFirst => (16 - 8 * (k / 8)) + k % 8
  | .msbFirst, .lsbFirst => 8 * (k / 8) + (7 - k % 8)
  | .lsbFirst, .lsbFirst => 8 * (k / 8) + k % 8

end Sys2Proof.Machine
end

