-- ==== Sys2Proof/Machine/Flags.lean ====
section
/-! DEFINITION. The one-bit conditions, the output ports, the error classes and the checks on a command (spec/10_state.md R40, R41, R48; spec/60_exceptions.md R230 to R238; spec/46_sequencer.md R211). The block has no condition codes (R40). -/

namespace Sys2Proof.Machine

/-- LIFE's code (R21). -/
def Life.code : Life → BitVec 1
  | .unconfigured => 0#1
  | .configured => 1#1

/-- PWR's code (R28). -/
def Power.code : Power → BitVec 1
  | .active => 0#1
  | .poweredDown => 1#1

/-- PH's code; 0xB to 0xF are never taken (R211). -/
def Phase.code : Phase → BitVec 4
  | .idle => 0x0#4
  | .iOut => 0x1#4
  | .iIn => 0x2#4
  | .iWr => 0x3#4
  | .qRd => 0x4#4
  | .dWr => 0x5#4
  | .uWr => 0x6#4
  | .poll => 0x7#4
  | .ckHi => 0x8#4
  | .ckLo => 0x9#4
  | .smp => 0xA#4

/-- BUSY: PH != IDLE (R40). -/
def State.busy (s : State) : Bool := s.ph != .idle

/-- Data-ready: the level read is low. Never latched (R41, R122). -/
def dataReady (v : Level) : Bool := !v

/-- The output ports (R48). -/
structure OutputPorts where
  cmdReady : Bool
  rspValid : Bool
  rspStatus : StatusCode
  rspData : Word
  pdSck : Level
  pdSckOe : Bool
deriving DecidableEq, Repr

/-- What the output ports show (R48): `cmd_ready` is not BUSY, `pd_sck` is SCK, `pd_sck_oe` is LIFE. -/
def State.outputs (s : State) : OutputPorts where
  cmdReady := !s.busy
  rspValid := s.rspValid
  rspStatus := s.rspStatus
  rspData := s.rspData
  pdSck := s.sck
  pdSckOe := s.life == .configured

/-- The error classes that have a status code (R230, R231). A ProtocolPrecondition violation has none: the block does
not detect it (R233). -/
inductive CmdError where
  /-- ConfigurationError (R232). -/
  | config
  /-- IOFailure (R234). -/
  | io
  /-- StateError (R235). -/
  | state
  /-- IllegalCommand (R236). -/
  | illegal
deriving DecidableEq, Repr

/-- The status code OK (R231). -/
def okCode : StatusCode := 0x0#4

/-- The status code of an error class (R231). -/
def CmdError.code : CmdError → StatusCode
  | .config => 0x1#4
  | .io => 0x2#4
  | .state => 0x3#4
  | .illegal => 0x4#4

/-- Check 2, lifecycle: the command needs LIFE = `want` (R238, R235 a and b). -/
def lifecycleCheck (want : Life) (s : State) : Option CmdError := if s.life = want then none else some .state

/-- Check 3, power gate, for RDRAW (R238, R193). -/
def powerGate (s : State) : Option CmdError := if s.pwr = .poweredDown then some .state else none

/-- Check 4, first part: the gain operand (R238, R232 a). -/
def gainCheck (g : Gain) : Option CmdError := if gainInSet g then none else some .config

/-- Check 4, second part: the pair as it would be after the command (R238, R232 b). -/
def pairCheck (c : Channel) (g : Gain) : Option CmdError := if validPair c g then none else some .config

end Sys2Proof.Machine
end

