-- ==== Sys2Proof/Machine/Ops.lean ====
section
/-! DEFINITION. The shared operations: input ports, pin primitives, accepting a command, responding and raising an error, starting a frame read, reset (spec/00_scope.md R17, spec/20_memory.md R62 to R66, spec/46_sequencer.md R212, R216, R225, spec/60_exceptions.md R239, spec/70_reset_and_hazards.md R260). -/

namespace Sys2Proof.Machine

/-- The outcome of a step or of an instruction. -/
abbrev Result := Host.Outcome State Fault Refusal

/-- The input ports as this step finds them: the next listed sample, else a free one (R48, R50). Log 2. -/
def State.ports (s : State) : PortSample :=
  match s.inputs with
  | io :: _ => io
  | [] => Config.freePorts s.drawn

/-- The state once this step's port sample is used up. Log 2. -/
def State.advance (s : State) : State :=
  match s.inputs with
  | _ :: rest => { s with inputs := rest }
  | [] => { s with drawn := s.drawn + 1 }

/-- Append an event to the pin trace (R16). -/
def State.log (e : PinEvent) (s : State) : State := { s with trace := s.trace ++ [e] }

/-- Whether the pin event of this step fails (R66; R48 `io_fail`). -/
def eventFails (io : PortSample) : Bool := Config.ioCanFail && io.ioFail

/-- One pin event: logged, and completed (`ok`) or failed (`error`) (R66). -/
def pinEvent (io : PortSample) (good bad : PinEvent) (s : State) : Except State State :=
  if eventFails io then .error (s.log bad) else .ok (s.log good)

/-- `PinCfgOut(p)` (R62). -/
def pinCfgOut (io : PortSample) (p : Pin) (s : State) : Except State State :=
  pinEvent io (.cfgOut p) (.cfgOutFailed p) s

/-- `PinCfgIn(p)` (R63). -/
def pinCfgIn (io : PortSample) (p : Pin) (s : State) : Except State State :=
  pinEvent io (.cfgIn p) (.cfgInFailed p) s

/-- `PinWrite(p, l)` (R64): a completed write mirrors the level into SCK, a failed one does not (R66). Every write of
the block is to the clock pin (R61). Log 15. -/
def pinWrite (io : PortSample) (p : Pin) (l : Level) (s : State) : Except State State :=
  (pinEvent io (.write p l) (.writeFailed p l) s).map (fun t => { t with sck := l })

/-- `PinRead(p)` (R65): the level it returns is `io.dout`; it changes nothing but the trace. -/
def pinRead (io : PortSample) (p : Pin) (s : State) : Except State State :=
  pinEvent io (.read p io.dout) (.readFailed p) s

/-- `respond(s, d)`: ends the command in progress (R17); the response joins the run's list (R282). -/
def State.respond (status : StatusCode) (data : Word) (s : State) : State :=
  { s with
    rspStatus := status, rspData := data, rspValid := true, ph := .idle
    responses := s.responses ++ [⟨status, data⟩] }

/-- TAKING AN EXCEPTION: raising an error class is responding with its code and data 0; nothing is saved, no mode
changes, control goes nowhere (R17, R239). There is no return from it: the block is idle as after a success (R243). -/
def State.raise (e : CmdError) (s : State) : State := s.respond e.code 0#32

/-- What follows a pin event: `k` if it completed, IOFailure if it failed (R225, R234). -/
def whenDone (r : Except State State) (k : State → Result) : Result :=
  match r with
  | .ok s => k s
  | .error s => .next (s.raise .io)

/-- The head of acceptance: RSP_VALID <- 0 (R212, R37). -/
def State.beginCommand (s : State) : State := { s with rspValid := false }

/-- Acceptance (R212): RSP_VALID <- 0; the first check that fails is raised; else the command's own start. -/
def State.checked (firstError : Option CmdError) (start : State → State) (s : State) : State :=
  match firstError with
  | some e => s.beginCommand.raise e
  | none => start s.beginCommand

/-- `CMD <- w`, w being the word of the accepted command (R212, R30). Log 12. -/
def State.latch (i : Instr) (s : State) : State := { s with cmd := encode i }

/-- `PH <- p` (R31). -/
def State.enter (p : Phase) (s : State) : State := { s with ph := p }

/-- Starting a frame read (R216): PCNT <- 0, ACC <- 0, PH <- POLL if ACQ_WAIT, else CK_HI. -/
def State.startFrame (s : State) : State :=
  { s with pcnt := 0#5, acc := 0#8, ph := if Config.acqWait then .poll else .ckHi }

/-- The reset event (R260, R261): the reset state, whatever the block was doing; the environment stays. Log 9. -/
def State.resetBlock (s : State) : State := { State.reset with inputs := s.inputs, drawn := s.drawn }

end Sys2Proof.Machine
end

