-- ==== Sys2Proof/Machine/AcquireCommands.lean ====
section
/-! DEFINITION. Acceptance of RDY and RDRAW (spec/44_acquire_commands.md, R212). Both go on in Machine/Sequencer.lean. -/

namespace Sys2Proof.Machine

/-- RDY (R191, R212): either power state; one read, in phase Q_RD. -/
def execRdy (s : State) : Result :=
  .next (s.checked (lifecycleCheck .configured s) (fun t => (t.latch .rdy).enter .qRd))

/-- RDRAW (R192, R193, R212): refused with StateError while PoweredDown; else a frame read starts. -/
def execRdraw (s : State) : Result :=
  .next (s.checked ((lifecycleCheck .configured s).or (powerGate s)) (fun t => (t.latch .rdraw).startFrame))

end Sys2Proof.Machine
end

