-- ==== Sys2Proof/Machine/ConfigCommands.lean ====
section
/-! DEFINITION. Acceptance of INIT, SETGAIN, GETGAIN, SETCHAN, GETCHAN (spec/43_config_commands.md, with the checks of R238 and the steps of R212). The last four are whole in the acceptance step; INIT goes on in Machine/Sequencer.lean. -/

namespace Sys2Proof.Machine

/-- INIT (R170, R212): Unconfigured only; gain, then pair; then the three pin events, from phase I_OUT on. -/
def execInit (clockPin dataPin : Pin) (gain : Gain) (channel : Channel) (bitOrder byteOrder : Order) (s : State) :
    Result :=
  .next (s.checked ((lifecycleCheck .unconfigured s).or ((gainCheck gain).or (pairCheck channel gain)))
    (fun t => (t.latch (.init clockPin dataPin gain channel bitOrder byteOrder)).enter .iOut))

/-- SETGAIN (R171). -/
def execSetgain (gain : Gain) (s : State) : Result :=
  .next (s.checked ((lifecycleCheck .configured s).or ((gainCheck gain).or (pairCheck s.chan gain)))
    (fun t => { t with gain := gain }.respond okCode 0#32))

/-- GETGAIN (R172): answers `zext_32(GAIN)`. -/
def execGetgain (s : State) : Result :=
  .next (s.checked (lifecycleCheck .configured s) (fun t => t.respond okCode (t.gain.setWidth 32)))

/-- SETCHAN (R173). -/
def execSetchan (channel : Channel) (s : State) : Result :=
  .next (s.checked ((lifecycleCheck .configured s).or (pairCheck channel s.gain))
    (fun t => { t with chan := channel }.respond okCode 0#32))

/-- GETCHAN (R174): answers `zext_32(CHAN)`. -/
def execGetchan (s : State) : Result :=
  .next (s.checked (lifecycleCheck .configured s) (fun t => t.respond okCode (t.chan.code.setWidth 32)))

end Sys2Proof.Machine
end

