-- ==== Sys2Proof/Machine/PowerCommands.lean ====
section
/-! DEFINITION. Acceptance of PWRDN and PWRUP (spec/45_power_commands.md, R212). When the power state changes they go on in Machine/Sequencer.lean. -/

namespace Sys2Proof.Machine

/-- PWRDN (R200, R202, R212): a no-op answering OK when PoweredDown; else one write, in phase D_WR. -/
def execPwrdn (s : State) : Result :=
  .next (s.checked (lifecycleCheck .configured s) (fun t =>
    match t.pwr with
    | .poweredDown => t.respond okCode 0#32
    | .active => (t.latch .pwrdn).enter .dWr))

/-- PWRUP (R201, R202, R212): a no-op answering OK when Active; else one write, in phase U_WR, then the flush. -/
def execPwrup (s : State) : Result :=
  .next (s.checked (lifecycleCheck .configured s) (fun t =>
    match t.pwr with
    | .active => t.respond okCode 0#32
    | .poweredDown => (t.latch .pwrup).enter .uWr))

end Sys2Proof.Machine
end

