-- ==== Sys2Proof/Machine/Dispatch.lean ====
section
/-! DEFINITION. One arm per command: what the acceptance of a decoded command does (spec/46_sequencer.md R212). -/

namespace Sys2Proof.Machine

def exec (i : Instr) (s : State) : Host.Outcome State Fault Refusal :=
  match i with
  | .init clockPin dataPin gain channel bitOrder byteOrder => Sys2Proof.Machine.execInit clockPin dataPin gain channel bitOrder byteOrder s
  | .setgain gain => Sys2Proof.Machine.execSetgain gain s
  | .getgain => Sys2Proof.Machine.execGetgain s
  | .setchan channel => Sys2Proof.Machine.execSetchan channel s
  | .getchan => Sys2Proof.Machine.execGetchan s
  | .rdy => Sys2Proof.Machine.execRdy s
  | .rdraw => Sys2Proof.Machine.execRdraw s
  | .pwrdn => Sys2Proof.Machine.execPwrdn s
  | .pwrup => Sys2Proof.Machine.execPwrup s

end Sys2Proof.Machine
end

