-- ==== Sys2Proof/Machine/Sequencer.lean ====
section
/-! DEFINITION. The sequencer: what each phase's step does, one pin event a step (spec/46_sequencer.md R213 to R225). -/

namespace Sys2Proof.Machine

/-- PH = I_OUT (R213). -/
def seqIOut (io : PortSample) (s : State) : Result :=
  whenDone (pinCfgOut io (clockPinField s.cmd) s) (fun t => .next (t.enter .iIn))

/-- PH = I_IN (R214). -/
def seqIIn (io : PortSample) (s : State) : Result :=
  whenDone (pinCfgIn io (dataPinField s.cmd) s) (fun t => .next (t.enter .iWr))

/-- INIT's commit: all six configuration registers from CMD, PWR <- Active, LIFE <- 1 (R215). -/
def State.commitConfig (s : State) : State :=
  { s with
    clkpin := clockPinField s.cmd, datpin := dataPinField s.cmd, gain := initGainField s.cmd
    chan := initChannelField s.cmd, bitord := bitOrderField s.cmd, byteord := byteOrderField s.cmd
    pwr := .active, life := .configured }

/-- PH = I_WR (R215). -/
def seqIWr (io : PortSample) (s : State) : Result :=
  whenDone (pinWrite io (clockPinField s.cmd) false s) (fun t => .next (t.commitConfig.respond okCode 0#32))

/-- PH = Q_RD (R222). -/
def seqQRd (io : PortSample) (s : State) : Result :=
  whenDone (pinRead io s.datpin s)
    (fun t => .next (t.respond okCode (if dataReady io.dout then 1#32 else 0#32)))

/-- PH = D_WR (R223). -/
def seqDWr (io : PortSample) (s : State) : Result :=
  whenDone (pinWrite io s.clkpin true s) (fun t => .next ({ t with pwr := .poweredDown }.respond okCode 0#32))

/-- PH = U_WR (R224). -/
def seqUWr (io : PortSample) (s : State) : Result :=
  whenDone (pinWrite io s.clkpin false s) (fun t => .next { t with pwr := .active }.startFrame)

/-- PH = POLL (R217). -/
def seqPoll (io : PortSample) (s : State) : Result :=
  whenDone (pinRead io s.datpin s) (fun t => .next (t.enter (if dataReady io.dout then .ckHi else .poll)))

/-- PH = CK_HI (R218). -/
def seqCkHi (io : PortSample) (s : State) : Result :=
  whenDone (pinWrite io s.clkpin true s) (fun t => .next (t.enter .ckLo))

/-- PH = CK_LO (R219). -/
def seqCkLo (io : PortSample) (s : State) : Result :=
  whenDone (pinWrite io s.clkpin false s) (fun t => .next (t.enter .smp))

/-- What one sampled bit does to ACC and BYTES: a data slot assembles it, an idle slot discards it (R220, R146). -/
def State.assembleBit (b : Level) (s : State) : State :=
  if s.pcnt.toNat < Config.frameBits then
    if s.pcnt.toNat % Config.byteBits = 7 then
      { s with bytes := s.bytes.set (s.pcnt.toNat / Config.byteBits) (orderStep s.bitord s.acc b), acc := 0#8 }
    else { s with acc := orderStep s.bitord s.acc b }
  else s

/-- PCNT <- PCNT + 1 (R220). -/
def State.countPulse (s : State) : State := { s with pcnt := s.pcnt + 1#5 }

/-- Ending a frame read (R221): FRAME is packed; RDRAW also decodes and answers the sample, PWRUP answers (OK, 0). -/
def endFrame (s : State) : Result :=
  if s.cmd = encode .rdraw then
    .next ({ s with frame := pack s.bytes s.byteord, sample := sextFrame (pack s.bytes s.byteord) }.respond okCode
      (sextFrame (pack s.bytes s.byteord)))
  else if s.cmd = encode .pwrup then
    .next ({ s with frame := pack s.bytes s.byteord }.respond okCode 0#32)
  else .fault .frameWithoutReader

/-- After the count: the frame read ends at `total(CHAN, GAIN)`, else the next slot starts (R220). -/
def nextSlot (s : State) : Result :=
  match totalPulses s.chan s.gain with
  | none => .fault .noPulseCount
  | some total => if s.pcnt.toNat = total then endFrame s else .next (s.enter .ckHi)

/-- PH = SMP (R220). -/
def seqSmp (io : PortSample) (s : State) : Result :=
  whenDone (pinRead io s.datpin s) (fun t => nextSlot (t.assembleBit io.dout).countPulse)

/-- The step of the current phase. An idle block has no pin event to make (R211). -/
def phaseStep (io : PortSample) (s : State) : Result :=
  match s.ph with
  | .idle => .next s
  | .iOut => seqIOut io s
  | .iIn => seqIIn io s
  | .iWr => seqIWr io s
  | .qRd => seqQRd io s
  | .dWr => seqDWr io s
  | .uWr => seqUWr io s
  | .poll => seqPoll io s
  | .ckHi => seqCkHi io s
  | .ckLo => seqCkLo io s
  | .smp => seqSmp io s

end Sys2Proof.Machine
end

