-- ==== Sys2Proof/Machine/Accept.lean ====
section
/-! DEFINITION. Acceptance of a word and the whole of one step: reset, acceptance, or the phase's pin event (spec/46_sequencer.md R210, R212; spec/70_reset_and_hazards.md R260). -/

namespace Sys2Proof.Machine

/-- `accept(w)`: check 1, decode, then the command's acceptance; an illegal word raises IllegalCommand (R212, R236,
R238). -/
def accept (w : Word) (s : State) : Result :=
  match decode w with
  | .command i => exec i s
  | .illegal _ => .next (s.beginCommand.raise .illegal)

/-- One step with the port sample `io`: an asserted reset comes first (R260, log 9); an idle block accepts the word
offered (R212) or, offered none, stays as it is (log 5); a busy block does its phase's pin event and serves no word
(R210, R212). -/
def tick (io : PortSample) (s : State) : Result :=
  if io.rst then .next s.resetBlock
  else if s.ph = .idle then
    if io.cmdValid then accept io.cmdWord s else .next s
  else phaseStep io s

/-- The port sample of a host that offers `w` and nothing else. -/
def offer (w : Word) : PortSample :=
  { rst := false, cmdValid := true, cmdWord := w, dout := false, ioFail := false }

end Sys2Proof.Machine
end

