-- ==== Sys2Proof/Machine/Step.lean ====
section
/-! DEFINITION. One step of the machine, and placing a command word for the next step (spec/46_sequencer.md R210, R212). -/

namespace Sys2Proof.Machine

/-- One step: the ports are sampled once and `tick` does the rest (R210). -/
def step (s : State) : Host.Outcome State Fault Refusal := tick s.ports s.advance

/-- The state whose next step accepts the word `w`: the block idle, the host offering the word (R212). Bits at and
above `nbits` are 0. Log 10. -/
def State.withFetchWord (s : State) (nbits w : Nat) : State :=
  { s with ph := .idle, inputs := offer (BitVec.ofNat 32 (w % 2 ^ nbits)) :: s.inputs }

end Sys2Proof.Machine
end

