-- ==== Sys2Proof/Machine/Micro.lean ====
section
/-! DEFINITION. The micro-operations and the commands as the pseudocode of their rules gives them, each command as a whole (spec/40_pulse_sample.md, spec/41_assembly.md, spec/42_decode.md, spec/43_config_commands.md, spec/44_acquire_commands.md, spec/45_power_commands.md). The step of the machine does not use this file: R226 says the sequencer agrees with it. Log 14. -/

namespace Sys2Proof.Machine

/-- How a micro-operation ends: with a result, with a failed pin event (R234), or not within the listed port samples. -/
inductive Micro (α : Type) where
  | done (a : α) (s : State)
  | ioFailure (s : State)
  | waiting

/-- One micro-operation after another; a failure is propagated unchanged (R17, R234). -/
def andThen {α β : Type} (m : Micro α) (k : α → State → Micro β) : Micro β :=
  match m with
  | .done a s => k a s
  | .ioFailure s => .ioFailure s
  | .waiting => .waiting

/-- One pin primitive on the next listed port sample, answering the level on `dout`. -/
def microEvent (event : PortSample → State → Except State State) (s : State) : Micro Level :=
  match s.inputs with
  | [] => .waiting
  | io :: rest =>
    match event io { s with inputs := rest } with
    | .ok t => .done io.dout t
    | .error t => .ioFailure t

/-- `PinCfgOut` as a micro-operation (R62). -/
def microCfgOut (p : Pin) : State → Micro Level := microEvent (fun io => pinCfgOut io p)

/-- `PinCfgIn` as a micro-operation (R63). -/
def microCfgIn (p : Pin) : State → Micro Level := microEvent (fun io => pinCfgIn io p)

/-- `PinWrite` as a micro-operation (R64). -/
def microWrite (p : Pin) (l : Level) : State → Micro Level := microEvent (fun io => pinWrite io p l)

/-- `PinRead` as a micro-operation (R65). -/
def microRead (p : Pin) : State → Micro Level := microEvent (fun io => pinRead io p)

/-- `pulse()` (R120). -/
def pulse (s : State) : Micro Level :=
  andThen (microWrite s.clkpin true s) (fun _ t => microWrite t.clkpin false t)

/-- `readBit()` (R121). -/
def readBit (s : State) : Micro Level :=
  andThen (pulse s) (fun _ t => microRead t.datpin t)

/-- `isDataReady()` (R122). -/
def isDataReady (s : State) : Micro Bool :=
  andThen (microRead s.datpin s) (fun v t => .done (dataReady v) t)

/-- `n` rounds of readByte's loop (R140). -/
def readBits : Nat → State → Micro Unit
  | 0, s => .done () s
  | n + 1, s => andThen (readBit s) (fun b t => readBits n { t with acc := orderStep t.bitord t.acc b })

/-- `readByte()`: always 8 bits (R140, R143). -/
def readByte (s : State) : Micro Byte :=
  andThen (readBits Config.byteBits { s with acc := 0#8 }) (fun _ t => .done t.acc t)

/-- `n` idle bit slots, their samples discarded (R146). -/
def idleBits : Nat → State → Micro Unit
  | 0, s => .done () s
  | n + 1, s => andThen (readBit s) (fun _ t => idleBits n t)

/-- readFrame's `BYTES[j] <- readByte()` (R144). -/
def readByteInto (j : Nat) (s : State) : Micro Unit :=
  andThen (readByte s) (fun b t => .done () { t with bytes := t.bytes.set j b })

/-- `readFrame()` (R144). The idle count is always defined where a frame is read (R42). -/
def readFrame (s : State) : Micro Frame :=
  andThen (readByteInto 0 s) fun _ s1 =>
  andThen (readByteInto 1 s1) fun _ s2 =>
  andThen (readByteInto 2 s2) fun _ s3 =>
  andThen (idleBits ((idlePulses s3.chan s3.gain).getD 0) s3) fun _ s4 =>
  .done (pack s4.bytes s4.byteord) { s4 with frame := pack s4.bytes s4.byteord }

/-- At most `n` polls of the data pin, ended by one that is ready (R190). -/
def pollUntilReady : Nat → State → Micro Unit
  | 0, _ => .waiting
  | n + 1, s => andThen (isDataReady s) (fun ready t => if ready then .done () t else pollUntilReady n t)

/-- `acquire()` (R190): the loop has no bound of its own; the listed port samples bound it here. -/
def acquire (s : State) : Micro Frame :=
  if Config.acqWait then andThen (pollUntilReady s.inputs.length s) (fun _ t => readFrame t) else readFrame s

/-- How a command ends: `k` after its last micro-operation, IOFailure if one failed (R17), `none` if it has not ended
within the listed port samples. -/
def endWith {α : Type} (m : Micro α) (k : α → State → State) : Option State :=
  match m with
  | .done a s => some (k a s)
  | .ioFailure s => some (s.raise .io)
  | .waiting => none

/-- The checks of a command, then its pseudocode (R238). -/
def checked (firstError : Option CmdError) (body : State → Option State) (s : State) : Option State :=
  match firstError with
  | some e => some (s.beginCommand.raise e)
  | none => body s.beginCommand

/-- INIT's pseudocode (R170). -/
def performInit (clockPin dataPin : Pin) (gain : Gain) (channel : Channel) (bitOrder byteOrder : Order) (s : State) :
    Option State :=
  checked ((lifecycleCheck .unconfigured s).or ((gainCheck gain).or (pairCheck channel gain)))
    (fun s0 =>
      endWith
        (andThen (microCfgOut clockPin s0) fun _ s1 =>
         andThen (microCfgIn dataPin s1) fun _ s2 => microWrite clockPin false s2)
        (fun _ t =>
          { t with
            clkpin := clockPin, datpin := dataPin, gain := gain, chan := channel, bitord := bitOrder
            byteord := byteOrder, pwr := .active, life := .configured }.respond okCode 0#32)) s

/-- SETGAIN's pseudocode (R171). -/
def performSetgain (gain : Gain) (s : State) : Option State :=
  checked ((lifecycleCheck .configured s).or ((gainCheck gain).or (pairCheck s.chan gain)))
    (fun t => some ({ t with gain := gain }.respond okCode 0#32)) s

/-- GETGAIN's pseudocode (R172). -/
def performGetgain (s : State) : Option State :=
  checked (lifecycleCheck .configured s) (fun t => some (t.respond okCode (t.gain.setWidth 32))) s

/-- SETCHAN's pseudocode (R173). -/
def performSetchan (channel : Channel) (s : State) : Option State :=
  checked ((lifecycleCheck .configured s).or (pairCheck channel s.gain))
    (fun t => some ({ t with chan := channel }.respond okCode 0#32)) s

/-- GETCHAN's pseudocode (R174). -/
def performGetchan (s : State) : Option State :=
  checked (lifecycleCheck .configured s) (fun t => some (t.respond okCode (t.chan.code.setWidth 32))) s

/-- RDY's pseudocode (R191). -/
def performRdy (s : State) : Option State :=
  checked (lifecycleCheck .configured s)
    (fun s0 => endWith (isDataReady s0) (fun ready t => t.respond okCode (if ready then 1#32 else 0#32))) s

/-- RDRAW's pseudocode (R192). -/
def performRdraw (s : State) : Option State :=
  checked ((lifecycleCheck .configured s).or (powerGate s))
    (fun s0 =>
      endWith (acquire s0) (fun f t => { t with sample := decodeFrame f }.respond okCode (decodeFrame f))) s

/-- PWRDN's pseudocode (R200). -/
def performPwrdn (s : State) : Option State :=
  checked (lifecycleCheck .configured s)
    (fun s0 =>
      match s0.pwr with
      | .poweredDown => some (s0.respond okCode 0#32)
      | .active =>
        endWith (microWrite s0.clkpin true s0) (fun _ t => { t with pwr := .poweredDown }.respond okCode 0#32)) s

/-- PWRUP's pseudocode (R201). -/
def performPwrup (s : State) : Option State :=
  checked (lifecycleCheck .configured s)
    (fun s0 =>
      match s0.pwr with
      | .active => some (s0.respond okCode 0#32)
      | .poweredDown =>
        endWith (andThen (microWrite s0.clkpin false s0) fun _ s1 => acquire { s1 with pwr := .active })
          (fun _ t => t.respond okCode 0#32)) s

/-- A whole command by its pseudocode, on the listed port samples; `none` if it has not ended within them. -/
def perform (i : Instr) (s : State) : Option State :=
  match i with
  | .init clockPin dataPin gain channel bitOrder byteOrder =>
    performInit clockPin dataPin gain channel bitOrder byteOrder s
  | .setgain gain => performSetgain gain s
  | .getgain => performGetgain s
  | .setchan channel => performSetchan channel s
  | .getchan => performGetchan s
  | .rdy => performRdy s
  | .rdraw => performRdraw s
  | .pwrdn => performPwrdn s
  | .pwrup => performPwrup s

end Sys2Proof.Machine
end

