-- ==== Sys2Proof/Safety.lean ====
section
/-! DEFINITION. What claims are stated in: runs, samples without reset or failure, the invariants the spec states, the registers a reset leaves open, the premises on time and pins (spec/10_state.md R42 to R45, spec/70_reset_and_hazards.md). -/

namespace Sys2Proof.Safety

open Sys2Proof.Machine

/-- `k` steps of the machine. -/
def runFor (k : Nat) (s : State) : Result := Host.Core.run Sys2Proof.core k s

/-- The host does not assert reset and the pin event does not fail in this sample. -/
def smooth (io : PortSample) : Bool := !io.rst && !io.ioFail

/-- The host does not assert reset in this sample. -/
def unreset (io : PortSample) : Bool := !io.rst

/-- A failed pin event of the trace (R66). -/
def isFailed : PinEvent → Bool
  | .cfgOut _ => false
  | .cfgIn _ => false
  | .write _ _ => false
  | .read _ _ => false
  | .cfgOutFailed _ => true
  | .cfgInFailed _ => true
  | .writeFailed _ _ => true
  | .readFailed _ => true

/-- No pin event has ever failed since the last reset (R43). -/
def noFailure (trace : List PinEvent) : Bool := !trace.any isFailed

/-- The level an event writes, if it is a completed write (R29). -/
def writtenLevel : PinEvent → Option Level
  | .cfgOut _ => none
  | .cfgIn _ => none
  | .write _ l => some l
  | .read _ _ => none
  | .cfgOutFailed _ => none
  | .cfgInFailed _ => none
  | .writeFailed _ _ => none
  | .readFailed _ => none

/-- The level last written with success in a trace, low if none was (R29: reset 0). -/
def lastWrittenLevel (trace : List PinEvent) : Level :=
  trace.foldl (fun l e => (writtenLevel e).getD l) false

/-- The phases of a frame read. -/
def readingFrame (p : Phase) : Prop := p = .poll ∨ p = .ckHi ∨ p = .ckLo ∨ p = .smp

/-- The phases of a bit slot. -/
def inSlot (p : Phase) : Prop := p = .ckHi ∨ p = .ckLo ∨ p = .smp

/-- The phases of INIT. -/
def initialising (p : Phase) : Prop := p = .iOut ∨ p = .iIn ∨ p = .iWr

/-- The invariant of the block: R42 to R44, R36, R39, and what they rest on. -/
structure Inv (s : State) : Prop where
  /-- R42. -/
  pairValid : s.life = .configured → validPair s.chan s.gain = true
  /-- INIT is in progress only while Unconfigured, under the word of an INIT whose pair is valid (R30, R170, R212). -/
  initWord : initialising s.ph → s.life = .unconfigured ∧
    ∃ c d g ch bo yo, s.cmd = encode (.init c d g ch bo yo) ∧ validPair ch g = true
  /-- Every other command is in progress only while Configured (R21). -/
  configuredWhenBusy : s.ph ≠ .idle → ¬ initialising s.ph → s.life = .configured
  /-- RDY's read is made under RDY's word (R30, R212). -/
  readyWord : s.ph = .qRd → s.cmd = encode .rdy
  /-- PWRDN's write is made under PWRDN's word (R30, R212). -/
  downWord : s.ph = .dWr → s.cmd = encode .pwrdn
  /-- PWRUP's write is made under PWRUP's word (R30, R212). -/
  upWord : s.ph = .uWr → s.cmd = encode .pwrup
  /-- A frame read belongs to RDRAW or PWRUP (R212, R224). -/
  frameReader : readingFrame s.ph → s.cmd = encode .rdraw ∨ s.cmd = encode .pwrup
  /-- A frame is read only while Active (R125, R193). -/
  frameActive : readingFrame s.ph → s.pwr = .active
  /-- PWRDN's write is made only while Active (R200). -/
  downFromActive : s.ph = .dWr → s.pwr = .active
  /-- PWRUP's write is made only while PoweredDown (R201). -/
  upFromDown : s.ph = .uWr → s.pwr = .poweredDown
  /-- Unconfigured means Active with a low clock (R20, R242). -/
  unconfiguredLow : s.life = .unconfigured → s.pwr = .active ∧ s.sck = false
  /-- No pulse is counted while polling (R216). -/
  pollCount : s.ph = .poll → s.pcnt = 0#5
  /-- R44. -/
  slotCount : inSlot s.ph → ∀ total, totalPulses s.chan s.gain = some total → s.pcnt.toNat < total
  /-- R43, with the level inside a pulse. -/
  clockLevel : noFailure s.trace = true → s.sck = (s.ph == .ckLo || s.pwr == .poweredDown)
  /-- RSP_VALID is 0 while a command is in progress (R37). -/
  busyNoResponse : s.ph ≠ .idle → s.rspValid = false
  /-- Status codes 0x5 to 0xF are never produced (R231). -/
  statusKnown : s.rspStatus.toNat ≤ 4
  /-- Data is 0 whenever the status is not OK (R39). -/
  errorData : s.rspStatus ≠ okCode → s.rspData = 0#32
  /-- Bits 31 to 23 of SAMPLE are equal (R36). -/
  sampleSign : s.sample = (s.sample.setWidth 24).signExtend 32

/-- A state as reset leaves it in the registers R20 gives a value for; every other register holds anything. -/
structure ResetLike (s : State) : Prop where
  life : s.life = .unconfigured
  pwr : s.pwr = .active
  sck : s.sck = false
  ph : s.ph = .idle
  rspValid : s.rspValid = false
  trace : s.trace = []
  responses : s.responses = []

/-- What the outside sees of a state: the output ports (the response ports only while RSP_VALID), the trace and the
responses (R48, R282). -/
structure SameView (s t : State) : Prop where
  cmdReady : s.busy = t.busy
  rspValid : s.rspValid = t.rspValid
  response : s.rspValid = true → s.rspStatus = t.rspStatus ∧ s.rspData = t.rspData
  pdSck : s.sck = t.sck
  pdSckOe : s.life = t.life
  trace : s.trace = t.trace
  responses : s.responses = t.responses

/-- Two outcomes look the same from outside. -/
def sameViewOutcome : Result → Result → Prop
  | .next s, .next t => SameView s t
  | .fault a, .fault b => a = b
  | .refused a, .refused b => a = b
  | _, _ => False

/-- What R226 compares: the registers it lists, the trace and the response; and how much of the environment is used. -/
structure SameCommandEnd (s t : State) : Prop where
  clkpin : s.clkpin = t.clkpin
  datpin : s.datpin = t.datpin
  gain : s.gain = t.gain
  chan : s.chan = t.chan
  bitord : s.bitord = t.bitord
  byteord : s.byteord = t.byteord
  life : s.life = t.life
  pwr : s.pwr = t.pwr
  sck : s.sck = t.sck
  trace : s.trace = t.trace
  rspValid : s.rspValid = t.rspValid
  rspStatus : s.rspStatus = t.rspStatus
  rspData : s.rspData = t.rspData
  responses : s.responses = t.responses
  inputs : s.inputs = t.inputs
  drawn : s.drawn = t.drawn

/-- The pin events of one bit slot (R91). -/
def slotEvents (clk dat : Pin) (b : Level) : List PinEvent := [.write clk true, .write clk false, .read dat b]

/-- The pin events of bit slots, one for each sampled bit (R92). -/
def frameEvents (clk dat : Pin) (bits : List Level) : List PinEvent := bits.flatMap (slotEvents clk dat)

/-- The bits sampled in bit slots whose port samples are listed, three a slot: rising edge, falling edge, sample
(R91, R218 to R220). -/
def sampledBits : List PortSample → List Level
  | _ :: _ :: io :: rest => io.dout :: sampledBits rest
  | _ => []

/-- A port sample with nothing asserted but the level `b` on the data pin. -/
def level (b : Level) : PortSample := ⟨false, false, 0#32, b, false⟩

/-- `s` once its command has been answered with `(status, data)`: the response registers, PH = IDLE, the response in
the run's list, and nothing else (R17, R239). -/
def answered (status : StatusCode) (data : Word) (s : State) : State :=
  { s with
    rspStatus := status, rspData := data, rspValid := true, ph := .idle
    responses := s.responses ++ [⟨status, data⟩] }

/-- The pairs of the pulse table (R93). -/
abbrev inTable (c : Channel) (g : Gain) : Prop :=
  (c = .a ∧ g = 128#8) ∨ (c = .b ∧ g = 32#8) ∨ (c = .a ∧ g = 64#8)

/-- The lifecycle state a command needs (R235 a, b). -/
def lifeWanted : Instr → Life
  | .init _ _ _ _ _ _ => .unconfigured
  | .setgain _ => .configured
  | .getgain => .configured
  | .setchan _ => .configured
  | .getchan => .configured
  | .rdy => .configured
  | .rdraw => .configured
  | .pwrdn => .configured
  | .pwrup => .configured

/-- The operands of a command are rejected: a gain that is not 32, 64 or 128, or a pair outside the table as it would
be after the command (R232). -/
def operandsRejected (s : State) : Instr → Bool
  | .init _ _ g c _ _ => !(decide (g = 32#8 ∨ g = 64#8 ∨ g = 128#8) && decide (inTable c g))
  | .setgain g => !(decide (g = 32#8 ∨ g = 64#8 ∨ g = 128#8) && decide (inTable s.chan g))
  | .getgain => false
  | .setchan c => !decide (inTable c s.gain)
  | .getchan => false
  | .rdy => false
  | .rdraw => false
  | .pwrdn => false
  | .pwrup => false

/-- The status an accepted word is refused with, by the order of checks 1 to 4 (R238); none if it passes them. -/
def refusalOf (w : Word) (s : State) : Option StatusCode :=
  match decode w with
  | .illegal _ => some 4#4
  | .command i =>
    if s.life ≠ lifeWanted i then some 3#4
    else if i = .rdraw ∧ s.pwr = .poweredDown then some 3#4
    else if operandsRejected s i then some 1#4
    else none

/-- op 0x0 or 0xA to 0xF (R105). -/
def opWithoutCommand (w : Word) : Prop := (opField w).toNat = 0 ∨ 10 ≤ (opField w).toNat

/-- A legal op with a reserved bit of its format set (R95 to R99, R105). -/
def reservedBitSet (w : Word) : Prop :=
  ((opField w).toNat = 1 ∧ w.getLsbD 0 = true) ∨
  ((opField w).toNat = 2 ∧ w.extractLsb' 8 20 ≠ 0#20) ∨
  ((opField w).toNat = 4 ∧ w.extractLsb' 1 27 ≠ 0#27) ∨
  (((opField w).toNat = 3 ∨ 5 ≤ (opField w).toNat ∧ (opField w).toNat ≤ 9) ∧ w.extractLsb' 0 28 ≠ 0#28)

/-- The pin event a phase makes when it completes (R211); an idle block makes none. -/
def phaseEvent (io : PortSample) (s : State) : List PinEvent :=
  match s.ph with
  | .idle => []
  | .iOut => [.cfgOut (clockPinField s.cmd)]
  | .iIn => [.cfgIn (dataPinField s.cmd)]
  | .iWr => [.write (clockPinField s.cmd) false]
  | .qRd => [.read s.datpin io.dout]
  | .dWr => [.write s.clkpin true]
  | .uWr => [.write s.clkpin false]
  | .poll => [.read s.datpin io.dout]
  | .ckHi => [.write s.clkpin true]
  | .ckLo => [.write s.clkpin false]
  | .smp => [.read s.datpin io.dout]

/-- The same event marked failed (R66). -/
def phaseEventFailed (s : State) : List PinEvent :=
  match s.ph with
  | .idle => []
  | .iOut => [.cfgOutFailed (clockPinField s.cmd)]
  | .iIn => [.cfgInFailed (dataPinField s.cmd)]
  | .iWr => [.writeFailed (clockPinField s.cmd) false]
  | .qRd => [.readFailed s.datpin]
  | .dWr => [.writeFailed s.clkpin true]
  | .uWr => [.writeFailed s.clkpin false]
  | .poll => [.readFailed s.datpin]
  | .ckHi => [.writeFailed s.clkpin true]
  | .ckLo => [.writeFailed s.clkpin false]
  | .smp => [.readFailed s.datpin]

/-- R274, a duty of the implementation: the high time of a pulse stays below the chip's threshold. A premise on time;
nothing in the model depends on it. Log 11. -/
def sckHighBelowThreshold : Prop := Config.sckHighNanos < Config.powerDownMicros * 1000

/-- Since when a clock pin driven high has stayed high, from the pin events each with the time it ended at: none if it
is low, or if a failed write has left its level open (U5, log 8). Reads and other pins do not matter. Log 11. -/
def clockHighSince (clk : Pin) (timed : List (PinEvent × Nat)) : Option Nat :=
  timed.foldl (fun since e =>
    match e.1 with
    | .cfgOut _ => since
    | .cfgIn _ => since
    | .write p l => if p = clk then (if l then some (since.getD e.2) else none) else since
    | .read _ _ => since
    | .cfgOutFailed _ => since
    | .cfgInFailed _ => since
    | .writeFailed p _ => if p = clk then none else since
    | .readFailed _ => since) none

/-- R273, a duty of the host: by the time `now` the clock pin has been high for at least the chip's threshold since
PWRDN drove it high, so that the chip may be relied on to be asleep. The block waits for nothing itself: `times`, when
each event of the trace ended, in nanoseconds, is the external timing layer's. A premise on time for claims about the
chip; nothing in the model depends on it. Log 11. -/
def powerDownWaited (s : State) (times : List Nat) (now : Nat) : Prop :=
  s.pwr = .poweredDown ∧ times.length = s.trace.length ∧
    ∃ since, clockHighSince s.clkpin (s.trace.zip times) = some since ∧ since + Config.powerDownMicros * 1000 ≤ now

/-- U3 of spec/93_implementation_defined.md: a configuration with CLKPIN = DATPIN is outside every claim about the
chip. The block does not check it. Log 7. -/
def pinsDistinct (s : State) : Prop := s.clkpin ≠ s.datpin

end Sys2Proof.Safety
end

