-- ==== Sys2Proof/Certificates/Slice0/Obligations.lean ====
section
/-! DEFINITION. The statements for the provers, from the numbered rules of spec/. A port sample (log 2) is the model's form of the environment: every statement below quantifies over all of them. -/

open Sys2Proof Sys2Proof.Machine Sys2Proof.Safety

-- Encoding ----------------------------------------------------------------------------------------------------------

/-- Decoding the word of a command gives the command back, whatever its operands (R95 to R103). Every term of `Instr`
is well formed. -/
def Obligations.DecodeEncodeRoundTrip : Prop := ∀ i : Instr, decode (encode i) = .command i

/-- A word that decodes to a command is that command's only word (R95 to R103). -/
def Obligations.EncodeDecodeRoundTrip : Prop := ∀ (w : Word) (i : Instr), decode w = .command i → encode i = w

/-- R104: a word is a row's command exactly when `w & mask = match`, and the nine rows are the nine commands. -/
def Obligations.OpcodeMapAgreesWithDecoder : Prop :=
  (∀ (w : Word) (r : OpcodeRow), r ∈ opcodeRows →
    (w &&& r.mask = r.value ↔ ∃ i, decode w = .command i ∧ i.mnemonic = r.mnemonic)) ∧
  ∀ i : Instr, ∃ r, r ∈ opcodeRows ∧ r.mnemonic = i.mnemonic

/-- R105: exactly the words with an op that has no command or with a reserved bit set are illegal, the all-zero and the
all-ones word among them; an idle block offered one answers ERR_ILLEGAL, with no pin event and no other change. -/
def Obligations.IllegalWordsAreRefused : Prop :=
  (∀ w : Word, (∃ why, decode w = .illegal why) ↔ opWithoutCommand w ∨ reservedBitSet w) ∧
  opWithoutCommand 0x00000000#32 ∧ opWithoutCommand 0xFFFFFFFF#32 ∧
  ∀ (s : State) (io : PortSample) (rest : List PortSample),
    s.ph = .idle → s.inputs = io :: rest → io.rst = false → io.cmdValid = true →
    opWithoutCommand io.cmdWord ∨ reservedBitSet io.cmdWord →
    step s = .next (answered 4#4 0#32 { s with inputs := rest })

/-- Words the spec prints decode to the commands it prints beside them (R107, R171, R173, R191, R192, R200, R201; V55). -/
def Obligations.SpecWordsDecode : Prop :=
  decode 0x10506800#32 = .command (.init 5#8 6#8 128#8 .a .msbFirst .msbFirst) ∧
  decode 0x1111B20E#32 = .command (.init 17#8 27#8 32#8 .b .lsbFirst .lsbFirst) ∧
  decode 0x20000064#32 = .command (.setgain 100#8) ∧
  decode 0x30000000#32 = .command .getgain ∧
  decode 0x40000001#32 = .command (.setchan .b) ∧
  decode 0x50000000#32 = .command .getchan ∧
  decode 0x60000000#32 = .command .rdy ∧
  decode 0x70000000#32 = .command .rdraw ∧
  decode 0x80000000#32 = .command .pwrdn ∧
  decode 0x90000000#32 = .command .pwrup

-- The step ----------------------------------------------------------------------------------------------------------

/-- R212: an idle block offered the word of a command does `exec` of that command, on the state with the port sample
used up. -/
def Obligations.StepRunsTheDecodedCommand : Prop :=
  ∀ (s : State) (io : PortSample) (rest : List PortSample) (i : Instr),
    s.ph = .idle → s.inputs = io :: rest → io.rst = false → io.cmdValid = true → decode io.cmdWord = .command i →
    step s = exec i { s with inputs := rest }

/-- R40, R212: while BUSY no word is accepted: what the host offers makes no difference to the step. -/
def Obligations.BusyBlockServesNoWord : Prop :=
  ∀ (s : State) (io : PortSample) (rest : List PortSample) (valid : Bool) (w : Word),
    s.ph ≠ .idle → s.inputs = io :: rest →
    step s = step { s with inputs := { io with cmdValid := valid, cmdWord := w } :: rest }

/-- The model's choice, log 5: an idle block that is offered no word stays as it is. -/
def Obligations.IdleBlockWaits : Prop :=
  ∀ (s : State) (io : PortSample) (rest : List PortSample),
    s.ph = .idle → s.inputs = io :: rest → io.rst = false → io.cmdValid = false →
    step s = .next { s with inputs := rest }

/-- R260 to R262, R20: reset, in any phase, leaves LIFE, PWR, SCK, PH and RSP_VALID at the values R20 gives, the trace
empty, and answers nothing; `State.reset` has the same values. That the run's response list is emptied with the trace
is the model's choice, log 4. -/
def Obligations.ResetFromAnyState : Prop :=
  ResetLike State.reset ∧
  ∀ (s : State) (io : PortSample) (rest : List PortSample), s.inputs = io :: rest → io.rst = true →
    ∃ t, step s = .next t ∧ ResetLike t ∧ t.inputs = rest

/-- R211: the phases' codes are 0x0 to 0xA, each its own; and a busy step that is no reset makes exactly its phase's pin
event, or that event failed. -/
def Obligations.PhaseTable : Prop :=
  (∀ p q : Phase, p.code.toNat ≤ 10 ∧ (p.code = q.code → p = q)) ∧
  ∀ (s t : State), s.ph ≠ .idle → s.ports.rst = false → step s = .next t →
    t.trace = s.trace ++ (if s.ports.ioFail then phaseEventFailed s else phaseEvent s.ports s)

/-- R213 to R219 and R222 to R224: what each phase but SMP does when its pin event completes. R216 is stated for both of
its uses, the acceptance of RDRAW and the completion of U_WR, with ACQ_WAIT true (R10), and for either value. -/
def Obligations.SequencerPhases : Prop :=
  Config.acqWait = true ∧
  (∀ s : State,
    s.startFrame = { s with pcnt := 0#5, acc := 0#8, ph := if Config.acqWait then .poll else .ckHi }) ∧
  ∀ (s : State) (io : PortSample) (rest : List PortSample), s.inputs = io :: rest → smooth io = true →
    (s.ph = .iOut →
      step s = .next { s with inputs := rest, trace := s.trace ++ [.cfgOut (clockPinField s.cmd)], ph := .iIn }) ∧
    (s.ph = .iIn →
      step s = .next { s with inputs := rest, trace := s.trace ++ [.cfgIn (dataPinField s.cmd)], ph := .iWr }) ∧
    (s.ph = .iWr →
      step s = .next (answered 0#4 0#32
        { s with
          inputs := rest, trace := s.trace ++ [.write (clockPinField s.cmd) false], sck := false
          clkpin := clockPinField s.cmd, datpin := dataPinField s.cmd, gain := initGainField s.cmd
          chan := initChannelField s.cmd, bitord := bitOrderField s.cmd, byteord := byteOrderField s.cmd
          pwr := .active, life := .configured })) ∧
    (s.ph = .qRd →
      step s = .next (answered 0#4 (if io.dout then 0#32 else 1#32)
        { s with inputs := rest, trace := s.trace ++ [.read s.datpin io.dout] })) ∧
    (s.ph = .dWr →
      step s = .next (answered 0#4 0#32
        { s with inputs := rest, trace := s.trace ++ [.write s.clkpin true], sck := true, pwr := .poweredDown })) ∧
    (s.ph = .uWr →
      step s = .next
        { s with
          inputs := rest, trace := s.trace ++ [.write s.clkpin false], sck := false, pwr := .active
          pcnt := 0#5, acc := 0#8, ph := .poll }) ∧
    (s.life = .configured → s.pwr = .active →
      exec .rdraw s = .next
        { s with rspValid := false, cmd := 0x70000000#32, pcnt := 0#5, acc := 0#8, ph := .poll }) ∧
    (s.ph = .poll →
      step s = .next
        { s with
          inputs := rest, trace := s.trace ++ [.read s.datpin io.dout]
          ph := if io.dout then .poll else .ckHi }) ∧
    (s.ph = .ckHi →
      step s = .next
        { s with inputs := rest, trace := s.trace ++ [.write s.clkpin true], sck := true, ph := .ckLo }) ∧
    (s.ph = .ckLo →
      step s = .next
        { s with inputs := rest, trace := s.trace ++ [.write s.clkpin false], sck := false, ph := .smp })

/-- R220, R221: the SMP step: a data slot assembles its bit, the eighth completes a byte, an idle slot discards its bit;
PCNT counts; at `total(CHAN, GAIN)` the frame is packed and RDRAW answers the sample, PWRUP (OK, 0). -/
def Obligations.SampleStep : Prop :=
  ∀ (s : State) (io : PortSample) (rest : List PortSample) (total : Nat),
    s.ph = .smp → s.inputs = io :: rest → smooth io = true → totalPulses s.chan s.gain = some total →
    ∃ t : State,
      t = { s with
            inputs := rest, trace := s.trace ++ [.read s.datpin io.dout], pcnt := s.pcnt + 1#5
            acc := t.acc, bytes := t.bytes } ∧
      (s.pcnt.toNat < 24 → ∃ a : Byte,
        (s.bitord = .msbFirst → a = (s.acc <<< 1) ||| (if io.dout then 1#8 else 0#8)) ∧
        (s.bitord = .lsbFirst → a = (s.acc >>> 1) ||| (if io.dout then 0x80#8 else 0#8)) ∧
        (s.pcnt.toNat % 8 = 7 → t.acc = 0#8 ∧
          t.bytes = { b0 := if s.pcnt.toNat = 7 then a else s.bytes.b0
                      b1 := if s.pcnt.toNat = 15 then a else s.bytes.b1
                      b2 := if s.pcnt.toNat = 23 then a else s.bytes.b2 }) ∧
        (s.pcnt.toNat % 8 ≠ 7 → t.acc = a ∧ t.bytes = s.bytes)) ∧
      (24 ≤ s.pcnt.toNat → t.acc = s.acc ∧ t.bytes = s.bytes) ∧
      (t.pcnt.toNat ≠ total → step s = .next { t with ph := .ckHi }) ∧
      (t.pcnt.toNat = total → s.cmd = 0x70000000#32 →
        step s = .next (answered 0#4 ((pack t.bytes t.byteord).signExtend 32)
          { t with frame := pack t.bytes t.byteord, sample := (pack t.bytes t.byteord).signExtend 32 })) ∧
      (t.pcnt.toNat = total → s.cmd = 0x90000000#32 →
        step s = .next (answered 0#4 0#32 { t with frame := pack t.bytes t.byteord }))

/-- R225: a pin event that fails does none of its phase's actions; the command ends with ERR_IO, PH becomes IDLE, and
everything written before stays. -/
def Obligations.FailedPinEventEndsTheCommand : Prop :=
  ∀ (s : State) (io : PortSample) (rest : List PortSample),
    s.ph ≠ .idle → s.inputs = io :: rest → io.rst = false → io.ioFail = true →
    step s = .next (answered 2#4 0#32 { s with inputs := rest, trace := s.trace ++ phaseEventFailed s })

-- The data path -----------------------------------------------------------------------------------------------------

/-- R141, R142, R148: the two byte steps, eight of them from 0, and the spec's worked example. -/
def Obligations.ByteAssemblyOrders : Prop :=
  (∀ (acc : Byte) (b : Level), (msbStep acc b).toNat = (2 * acc.toNat + b.toNat) % 256) ∧
  (∀ (acc : Byte) (b : Level), (lsbStep acc b).toNat = acc.toNat / 2 + 128 * b.toNat) ∧
  (∀ b0 b1 b2 b3 b4 b5 b6 b7 : Level,
    ([b0, b1, b2, b3, b4, b5, b6, b7].foldl msbStep 0#8).toNat =
      128 * b0.toNat + 64 * b1.toNat + 32 * b2.toNat + 16 * b3.toNat + 8 * b4.toNat + 4 * b5.toNat + 2 * b6.toNat +
        b7.toNat ∧
    ([b0, b1, b2, b3, b4, b5, b6, b7].foldl lsbStep 0#8).toNat =
      b0.toNat + 2 * b1.toNat + 4 * b2.toNat + 8 * b3.toNat + 16 * b4.toNat + 32 * b5.toNat + 64 * b6.toNat +
        128 * b7.toNat) ∧
  msbStep 0x05#8 false = 0x0A#8 ∧ lsbStep 0x80#8 false = 0x40#8 ∧
  [true, false, true, false, true, false, true, false].foldl msbStep 0#8 = 170#8 ∧
  [true, false, true, false, true, false, true, false].foldl lsbStep 0#8 = 85#8

/-- R147: where the three bytes land under both byte orders. -/
def Obligations.PackPlacesBytes : Prop :=
  ∀ b0 b1 b2 : Byte,
    (pack ⟨b0, b1, b2⟩ .msbFirst).toNat = 65536 * b0.toNat + 256 * b1.toNat + b2.toNat ∧
    (pack ⟨b0, b1, b2⟩ .lsbFirst).toNat = 65536 * b2.toNat + 256 * b1.toNat + b0.toNat ∧
    pack ⟨0x12#8, 0x34#8, 0x56#8⟩ .msbFirst = 0x123456#24 ∧ pack ⟨0x12#8, 0x34#8, 0x56#8⟩ .lsbFirst = 0x563412#24

/-- R160 to R162: decode by the spec's formula is the frame, less 2^24 if bit 23 is set; as a pattern it is the sign
extension; it is a bijection onto [-8388608, 8388607]. -/
def Obligations.DecodeIsTwosComplement : Prop :=
  (∀ f : Frame,
    signedValue f = -((f &&& 0x800000#24).toNat : Int) + ((f &&& 0x7FFFFF#24).toNat : Int) ∧
    signedValue f = (if f.getLsbD 23 then (f.toNat : Int) - 0x1000000 else (f.toNat : Int)) ∧
    decodeFrame f = f.signExtend 32 ∧ (decodeFrame f).toInt = signedValue f ∧
    -8388608 ≤ signedValue f ∧ signedValue f ≤ 8388607) ∧
  (∀ f g : Frame, signedValue f = signedValue g → f = g) ∧
  (∀ n : Int, -8388608 ≤ n → n ≤ 8388607 → ∃ f, signedValue f = n) ∧
  signedValue 0x7FFFFF#24 = 8388607 ∧ signedValue 0x800000#24 = -8388608 ∧ signedValue 0#24 = 0 ∧
  signedValue 0xFFFFFF#24 = -1

/-- R18, R93: the pulse table: `idle`, `valid` and `total` for every pair. -/
def Obligations.PulseTable : Prop :=
  (∀ (c : Channel) (g : Gain) (n : Nat),
    idlePulses c g = some n ↔
      (c = .a ∧ g = 128#8 ∧ n = 1) ∨ (c = .b ∧ g = 32#8 ∧ n = 2) ∨ (c = .a ∧ g = 64#8 ∧ n = 3)) ∧
  (∀ (c : Channel) (g : Gain), validPair c g = true ↔ ∃ n, idlePulses c g = some n) ∧
  ∀ (c : Channel) (g : Gain) (n : Nat),
    totalPulses c g = some n ↔
      (c = .a ∧ g = 128#8 ∧ n = 25) ∨ (c = .b ∧ g = 32#8 ∧ n = 26) ∨ (c = .a ∧ g = 64#8 ∧ n = 27)

-- The configuration commands ----------------------------------------------------------------------------------------

/-- R171: SETGAIN completes exactly when Configured and the pair it would make is in the table; GAIN is then the operand
and nothing else but the response changes. On any other operand GAIN keeps its value and the answer is ERR_CONFIG. The
power state is not looked at. -/
def Obligations.SetgainSetsTheGain : Prop :=
  ∀ (g : Gain) (s : State),
    (s.life = .configured → inTable s.chan g → exec (.setgain g) s = .next (answered 0#4 0#32 { s with gain := g })) ∧
    (s.life = .configured → (g ≠ 32#8 ∧ g ≠ 64#8 ∧ g ≠ 128#8) ∨ ¬ inTable s.chan g →
      exec (.setgain g) s = .next (answered 1#4 0#32 s)) ∧
    (s.life = .unconfigured → exec (.setgain g) s = .next (answered 3#4 0#32 s))

/-- R172: GETGAIN answers `zext_32(GAIN)` and changes nothing else. -/
def Obligations.GetgainAnswersTheGain : Prop :=
  ∀ s : State,
    (s.life = .configured → exec .getgain s = .next (answered 0#4 (s.gain.setWidth 32) s)) ∧
    (s.life = .unconfigured → exec .getgain s = .next (answered 3#4 0#32 s))

/-- R173: SETCHAN completes exactly when Configured and the pair it would make is in the table. -/
def Obligations.SetchanSetsTheChannel : Prop :=
  ∀ (c : Channel) (s : State),
    (s.life = .configured → inTable c s.gain → exec (.setchan c) s = .next (answered 0#4 0#32 { s with chan := c })) ∧
    (s.life = .configured → ¬ inTable c s.gain → exec (.setchan c) s = .next (answered 1#4 0#32 s)) ∧
    (s.life = .unconfigured → exec (.setchan c) s = .next (answered 3#4 0#32 s))

/-- R174: GETCHAN answers 0 for A and 1 for B and changes nothing else. -/
def Obligations.GetchanAnswersTheChannel : Prop :=
  ∀ s : State,
    (s.life = .configured → s.chan = .a → exec .getchan s = .next (answered 0#4 0#32 s)) ∧
    (s.life = .configured → s.chan = .b → exec .getchan s = .next (answered 0#4 1#32 s)) ∧
    (s.life = .unconfigured → exec .getchan s = .next (answered 3#4 0#32 s))

/-- R170, R212 to R215: INIT, from acceptance to its response: the three pin events in order, then all six configuration
registers, PWR, SCK and LIFE at once. -/
def Obligations.InitConfigures : Prop :=
  ∀ (s : State) (c d : Pin) (g : Gain) (ch : Channel) (bo yo : Order) (io1 io2 io3 : PortSample)
    (rest : List PortSample),
    s.life = .unconfigured → inTable ch g → s.inputs = io1 :: io2 :: io3 :: rest →
    smooth io1 = true → smooth io2 = true → smooth io3 = true →
    exec (.init c d g ch bo yo) s =
      .next { s with rspValid := false, cmd := encode (.init c d g ch bo yo), ph := .iOut } ∧
    runFor 3 { s with rspValid := false, cmd := encode (.init c d g ch bo yo), ph := .iOut } =
      .next (answered 0#4 0#32
        { s with
          inputs := rest, trace := s.trace ++ [.cfgOut c, .cfgIn d, .write c false], cmd := encode (.init c d g ch bo yo)
          life := .configured, clkpin := c, datpin := d, gain := g, chan := ch, bitord := bo, byteord := yo
          pwr := .active, sck := false })

/-- R108: from any state, a reset and then INIT with a valid pair configure the block. -/
def Obligations.ConstructFromAnyState : Prop :=
  ∀ (s : State) (c d : Pin) (g : Gain) (ch : Channel) (bo yo : Order) (io0 io1 io2 io3 io4 : PortSample)
    (rest : List PortSample),
    s.inputs = io0 :: io1 :: io2 :: io3 :: io4 :: rest → io0.rst = true → io1.rst = false → io1.cmdValid = true →
    io1.cmdWord = encode (.init c d g ch bo yo) → inTable ch g → smooth io2 = true → smooth io3 = true →
    smooth io4 = true →
    ∃ t, runFor 5 s = .next t ∧ t.life = .configured ∧ t.clkpin = c ∧ t.datpin = d ∧ t.gain = g ∧ t.chan = ch ∧
      t.bitord = bo ∧ t.byteord = yo ∧ t.pwr = .active ∧ t.sck = false ∧ t.ph = .idle ∧ t.rspValid = true ∧
      t.rspStatus = 0#4 ∧ t.rspData = 0#32 ∧ t.trace = [.cfgOut c, .cfgIn d, .write c false] ∧ t.inputs = rest

/-- The spec's §8 example S1 of R172: after SETGAIN g, GETGAIN answers g where the pair is in the table, and the previous
gain where it is not. -/
def Obligations.SetgainThenGetgain : Prop :=
  ∀ (s : State) (g : Gain), s.life = .configured →
    ∃ t u, exec (.setgain g) s = .next t ∧ exec .getgain t = .next u ∧ u.rspStatus = 0#4 ∧
      (inTable s.chan g → u.rspData = g.setWidth 32) ∧ (¬ inTable s.chan g → u.rspData = s.gain.setWidth 32)

-- Checks and errors -------------------------------------------------------------------------------------------------

/-- R235: StateError, for exactly its three causes: the answer is ERR_STATE and nothing else changes. -/
def Obligations.StateErrors : Prop :=
  ∀ (i : Instr) (s : State),
    (s.life ≠ lifeWanted i → exec i s = .next (answered 3#4 0#32 s)) ∧
    (s.life = .configured → s.pwr = .poweredDown → exec .rdraw s = .next (answered 3#4 0#32 s)) ∧
    (∀ t, exec i s = .next t → t.responses = s.responses ++ [⟨3#4, 0#32⟩] →
      s.life ≠ lifeWanted i ∨ (i = .rdraw ∧ s.pwr = .poweredDown))

/-- R232: ConfigurationError, for exactly its causes, in the lifecycle state the command needs: the answer is ERR_CONFIG
and nothing else changes, so the prior valid value is retained. -/
def Obligations.ConfigurationErrors : Prop :=
  ∀ (i : Instr) (s : State),
    (s.life = lifeWanted i → operandsRejected s i = true → exec i s = .next (answered 1#4 0#32 s)) ∧
    (∀ t, exec i s = .next t → t.responses = s.responses ++ [⟨1#4, 0#32⟩] → operandsRejected s i = true)

/-- R238: the checks on an accepted word come in order, decode, lifecycle, power gate, operand values, and the first that
fails is the one reported; a word that passes them makes no pin event in this step and is either answered OK or goes on;
then the first pin event that fails is reported as ERR_IO. -/
def Obligations.ChecksComeInOrder : Prop :=
  ∀ (s : State) (io : PortSample) (rest : List PortSample), s.inputs = io :: rest → io.rst = false →
    (s.ph = .idle → io.cmdValid = true → ∀ code, refusalOf io.cmdWord s = some code →
      step s = .next (answered code 0#32 { s with inputs := rest })) ∧
    (s.ph = .idle → io.cmdValid = true → refusalOf io.cmdWord s = none →
      ∃ t, step s = .next t ∧ t.trace = s.trace ∧
        (t.ph ≠ .idle ∧ t.rspValid = false ∨ t.ph = .idle ∧ t.rspValid = true ∧ t.rspStatus = 0#4)) ∧
    (s.ph ≠ .idle → io.ioFail = true →
      step s = .next (answered 2#4 0#32 { s with inputs := rest, trace := s.trace ++ phaseEventFailed s }))

/-- R240, R241: a word refused in its acceptance step changes RSP_VALID, RSP_STATUS and RSP_DATA and no other register of
an idle block, and the trace has not grown. -/
def Obligations.RefusedWordChangesOnlyTheResponse : Prop :=
  ∀ (w : Word) (s t : State), s.ph = .idle → accept w s = .next t → t.rspValid = true → t.rspStatus ≠ 0#4 →
    t = { s with
          rspValid := true, rspStatus := t.rspStatus, rspData := 0#32
          responses := s.responses ++ [⟨t.rspStatus, 0#32⟩] }

/-- R212, and the access table of R47 (which the spec marks as its own inference): what the acceptance of a command leaves
unchanged: everything but the response, PH, and, where the command
says so, GAIN (SETGAIN), CHAN (SETCHAN), PCNT and ACC (RDRAW), and CMD (when pin events follow). -/
def Obligations.AcceptanceFrame : Prop :=
  ∀ (i : Instr) (s t : State), exec i s = .next t →
    t.life = s.life ∧ t.clkpin = s.clkpin ∧ t.datpin = s.datpin ∧ t.bitord = s.bitord ∧ t.byteord = s.byteord ∧
    t.pwr = s.pwr ∧ t.sck = s.sck ∧ t.bytes = s.bytes ∧ t.frame = s.frame ∧ t.sample = s.sample ∧ t.trace = s.trace ∧
    t.inputs = s.inputs ∧ t.drawn = s.drawn ∧
    ((∀ g, i ≠ .setgain g) → t.gain = s.gain) ∧ ((∀ c, i ≠ .setchan c) → t.chan = s.chan) ∧
    (i ≠ .rdraw → t.pcnt = s.pcnt ∧ t.acc = s.acc) ∧ (t.ph = .idle → t.cmd = s.cmd)

-- Readiness and acquisition -----------------------------------------------------------------------------------------

/-- R191, R222: RDY, from acceptance to its response: one read of the data pin; 1 if it was low, 0 if it was high; in
either power state. -/
def Obligations.RdyReportsReadiness : Prop :=
  ∀ (s : State) (io : PortSample) (rest : List PortSample),
    s.life = .configured → s.inputs = io :: rest → smooth io = true →
    exec .rdy s = .next { s with rspValid := false, cmd := 0x60000000#32, ph := .qRd } ∧
    runFor 1 { s with rspValid := false, cmd := 0x60000000#32, ph := .qRd } =
      .next (answered 0#4 (if io.dout then 0#32 else 1#32)
        { s with inputs := rest, trace := s.trace ++ [.read s.datpin io.dout], cmd := 0x60000000#32 })

/-- R192, R190, R144, R92, and R94's closed form (the spec's own inference): RDRAW, from acceptance to its response: polls until the pin reads low, one frame of
`total(CHAN, GAIN)` bit slots, the 24 data bits placed by the two orders, the sample sign-extended and answered. Nothing
else changes. -/
def Obligations.RdrawReadsOneFrame : Prop :=
  ∀ (s : State) (polls slots rest : List PortSample) (ready : PortSample) (total : Nat),
    s.life = .configured → s.pwr = .active → totalPulses s.chan s.gain = some total →
    s.inputs = polls ++ ready :: (slots ++ rest) →
    (∀ io ∈ polls, smooth io = true ∧ io.dout = true) → smooth ready = true → ready.dout = false →
    (∀ io ∈ slots, smooth io = true) → slots.length = 3 * total →
    ∃ t u, exec .rdraw s = .next t ∧ runFor (polls.length + 1 + slots.length) t = .next u ∧
      u = answered 0#4 (u.frame.signExtend 32)
        { s with
          inputs := rest, cmd := 0x70000000#32, pcnt := BitVec.ofNat 5 total, acc := 0#8, sck := false
          bytes := u.bytes, frame := u.frame, sample := u.frame.signExtend 32
          trace := s.trace ++ List.replicate polls.length (.read s.datpin true) ++ [.read s.datpin false] ++
            frameEvents s.clkpin s.datpin (sampledBits slots) } ∧
      ∀ k, k < 24 → u.frame.getLsbD (bitPosition s.bitord s.byteord k) = (sampledBits slots).getD k false

/-- R217, R194, R278: as long as the data pin reads high the poll goes on: only the trace grows, by one read a step, and
no clock event is made. -/
def Obligations.PollingNeverPulses : Prop :=
  ∀ (s : State) (polls rest : List PortSample), s.ph = .poll → s.inputs = polls ++ rest →
    (∀ io ∈ polls, smooth io = true ∧ io.dout = true) →
    runFor polls.length s =
      .next { s with inputs := rest, trace := s.trace ++ List.replicate polls.length (.read s.datpin true) }

/-- R124, R190 with ACQ_WAIT true (R10): a frame's first rising edge comes only after a poll of the data pin that read
low, with nothing in between. -/
def Obligations.FrameStartsAfterALowPoll : Prop :=
  ∀ s t : State, step s = .next t → s.ph ≠ .smp → t.ph = .ckHi →
    s.ph = .poll ∧ s.ports.dout = false ∧ t.trace = s.trace ++ [.read s.datpin false]

/-- R226 (the spec's own inference: "gives the same pin trace, the same final registers ... and the same response"):
running the sequencer from acceptance to IDLE ends as the command's pseudocode does: same trace, same response,
same registers of R226's list, same port samples used. That `perform` runs on the listed port samples only and knows
of no reset is the model's choice, log 14. -/
def Obligations.SequencerAgreesWithPseudocode : Prop :=
  ∀ (i : Instr) (s t : State), s.ph = .idle → (s.life = .configured → validPair s.chan s.gain = true) →
    (∀ io ∈ s.inputs, unreset io = true) → perform i s = some t →
    ∃ n s0 u, exec i s = .next s0 ∧ n ≤ s.inputs.length ∧ runFor n s0 = .next u ∧ u.ph = .idle ∧ SameCommandEnd t u

/-- R226 (the spec's own inference): where the command's pseudocode has not ended within the listed port samples, neither
has the sequencer. That `perform` answers none when the listed samples end, and knows of no reset, is the model's
choice, log 14. -/
def Obligations.SequencerWaitsWithPseudocode : Prop :=
  ∀ (i : Instr) (s : State), s.ph = .idle → (s.life = .configured → validPair s.chan s.gain = true) →
    (∀ io ∈ s.inputs, unreset io = true) → perform i s = none →
    ∃ s0, exec i s = .next s0 ∧ ∀ n, n ≤ s.inputs.length → ∃ u, runFor n s0 = .next u ∧ u.ph ≠ .idle

/-- R227 (the spec's own inference: "every command but RDRAW and PWRUP ends within 3 steps of acceptance"): every command but RDRAW and PWRUP is back at IDLE within 3 steps of its acceptance, pin failures included. -/
def Obligations.ShortCommandsEndWithinThreeSteps : Prop :=
  ∀ (i : Instr) (s : State), i ≠ .rdraw → i ≠ .pwrup → (∀ io ∈ s.inputs, unreset io = true) → 3 ≤ s.inputs.length →
    ∃ s0 k u, exec i s = .next s0 ∧ k ≤ 3 ∧ runFor k s0 = .next u ∧ u.ph = .idle

/-- R227 (the spec's own inference: "within 81 steps ... of the poll that read 0"): from the poll that read 0, a frame read is back at IDLE within 81 steps, pin failures included. -/
def Obligations.FrameEndsWithinEightyOneSteps : Prop :=
  ∀ s : State, validPair s.chan s.gain = true → s.cmd = encode .rdraw ∨ s.cmd = encode .pwrup → s.ph = .ckHi →
    s.pcnt = 0#5 → (∀ io ∈ s.inputs, unreset io = true) → 81 ≤ s.inputs.length →
    ∃ k u, k ≤ 81 ∧ runFor k s = .next u ∧ u.ph = .idle

-- Power -------------------------------------------------------------------------------------------------------------

/-- R200: PWRDN while Active, from acceptance to its response: the clock is driven high and left there. -/
def Obligations.PwrdnHoldsTheClockHigh : Prop :=
  ∀ (s : State) (io : PortSample) (rest : List PortSample),
    s.life = .configured → s.pwr = .active → s.inputs = io :: rest → smooth io = true →
    exec .pwrdn s = .next { s with rspValid := false, cmd := 0x80000000#32, ph := .dWr } ∧
    runFor 1 { s with rspValid := false, cmd := 0x80000000#32, ph := .dWr } =
      .next (answered 0#4 0#32
        { s with
          inputs := rest, trace := s.trace ++ [.write s.clkpin true], cmd := 0x80000000#32, sck := true
          pwr := .poweredDown })

/-- R201, R204, and R94's closed form (the spec's own inference): PWRUP while PoweredDown, from acceptance to its response: the clock is driven low, then one whole frame at
the configured pair is read and thrown away; SAMPLE is not written. -/
def Obligations.PwrupFlushesOneFrame : Prop :=
  ∀ (s : State) (polls slots rest : List PortSample) (first ready : PortSample) (total : Nat),
    s.life = .configured → s.pwr = .poweredDown → totalPulses s.chan s.gain = some total →
    s.inputs = first :: polls ++ ready :: (slots ++ rest) → smooth first = true →
    (∀ io ∈ polls, smooth io = true ∧ io.dout = true) → smooth ready = true → ready.dout = false →
    (∀ io ∈ slots, smooth io = true) → slots.length = 3 * total →
    ∃ t u, exec .pwrup s = .next t ∧ runFor (1 + polls.length + 1 + slots.length) t = .next u ∧
      u = answered 0#4 0#32
        { s with
          inputs := rest, cmd := 0x90000000#32, pcnt := BitVec.ofNat 5 total, acc := 0#8, sck := false, pwr := .active
          bytes := u.bytes, frame := u.frame
          trace := s.trace ++ [.write s.clkpin false] ++ List.replicate polls.length (.read s.datpin true) ++
            [.read s.datpin false] ++ frameEvents s.clkpin s.datpin (sampledBits slots) } ∧
      ∀ k, k < 24 → u.frame.getLsbD (bitPosition s.bitord s.byteord k) = (sampledBits slots).getD k false

/-- R202: PWRDN while PoweredDown and PWRUP while Active make no pin event, change no state and answer (OK, 0). -/
def Obligations.PowerCommandsAreIdempotent : Prop :=
  ∀ s : State, s.life = .configured →
    (s.pwr = .poweredDown → exec .pwrdn s = .next (answered 0#4 0#32 s)) ∧
    (s.pwr = .active → exec .pwrup s = .next (answered 0#4 0#32 s))

-- Who writes what ---------------------------------------------------------------------------------------------------

/-- R22 to R27, R70, R177, R205: between resets the pins and the orders are written by INIT's commit only, GAIN also by
SETGAIN, CHAN also by SETCHAN. -/
def Obligations.ConfigurationWriters : Prop :=
  ∀ s t : State, step s = .next t → s.ports.rst = false →
    (t.clkpin ≠ s.clkpin ∨ t.datpin ≠ s.datpin ∨ t.bitord ≠ s.bitord ∨ t.byteord ≠ s.byteord → s.ph = .iWr) ∧
    (t.gain ≠ s.gain → s.ph = .iWr ∨ s.ph = .idle ∧ decode s.ports.cmdWord = .command (.setgain t.gain)) ∧
    (t.chan ≠ s.chan → s.ph = .iWr ∨ s.ph = .idle ∧ decode s.ports.cmdWord = .command (.setchan t.chan))

/-- R21, R28: LIFE is set by INIT's commit only and cleared by nothing but reset; PWR changes only by PWRDN's write,
PWRUP's write and INIT's commit. -/
def Obligations.LifeAndPowerWriters : Prop :=
  ∀ s t : State, step s = .next t → s.ports.rst = false →
    (t.life ≠ s.life → s.ph = .iWr ∧ t.life = .configured) ∧
    (t.pwr ≠ s.pwr →
      s.ph = .dWr ∧ t.pwr = .poweredDown ∨ s.ph = .uWr ∧ t.pwr = .active ∨ s.ph = .iWr ∧ t.pwr = .active)

/-- R35, R36, and the access table of R47 (the spec's own inference): FRAME and BYTES are written by SMP only, SAMPLE only by the SMP step of RDRAW; PCNT and ACC also where a
frame read starts. -/
def Obligations.DataPathWriters : Prop :=
  ∀ s t : State, step s = .next t → s.ports.rst = false →
    (t.frame ≠ s.frame ∨ t.bytes ≠ s.bytes → s.ph = .smp) ∧
    (t.sample ≠ s.sample → s.ph = .smp ∧ s.cmd = encode .rdraw ∧ t.rspData = t.sample) ∧
    (t.pcnt ≠ s.pcnt ∨ t.acc ≠ s.acc →
      s.ph = .smp ∨ s.ph = .uWr ∨ s.ph = .idle ∧ decode s.ports.cmdWord = .command .rdraw)

/-- R29, R64, R66: SCK is the level last written with success to the clock pin, low after a reset: every step keeps this. -/
def Obligations.ClockMirrorsTheLastWrite : Prop :=
  ∀ s t : State, s.sck = lastWrittenLevel s.trace → step s = .next t → t.sck = lastWrittenLevel t.trace

/-- R61, and R67 (the spec's own inference): a Configured block only writes CLKPIN and only reads DATPIN, one event a step at most (R73, R210). -/
def Obligations.ConfiguredPinAccess : Prop :=
  ∀ s t : State, Inv s → s.life = .configured → s.ports.rst = false → step s = .next t →
    t.trace = s.trace ∨ ∃ e, t.trace = s.trace ++ [e] ∧
      ((∃ l, e = .write s.clkpin l) ∨ (∃ l, e = .writeFailed s.clkpin l) ∨ (∃ l, e = .read s.datpin l) ∨
        e = .readFailed s.datpin)

/-- R48, R66: with `io_fail` at 0, as when IO_CAN_FAIL is false, no step logs a failed event or answers ERR_IO. -/
def Obligations.NoFailureWithoutIoFail : Prop :=
  ∀ s t : State, s.ports.ioFail = false → step s = .next t →
    (noFailure s.trace = true → noFailure t.trace = true) ∧
    (t.responses = s.responses ∨ t.responses = [] ∨
      ∃ r, t.responses = s.responses ++ [r] ∧ r.status ≠ 2#4)

/-- R37: while RSP_VALID is 1, RSP_STATUS and RSP_DATA hold the last response: every step keeps this. -/
def Obligations.LastResponseIsHeld : Prop :=
  ∀ s t : State, (s.rspValid = true → s.responses.getLast? = some ⟨s.rspStatus, s.rspData⟩) → step s = .next t →
    (t.rspValid = true → t.responses.getLast? = some ⟨t.rspStatus, t.rspData⟩)

/-- R176 (the spec's own inference: "No sequence of SETGAIN and SETCHAN moves the block between channel A and channel B"):
between resets no step moves a Configured block from one channel to the other. -/
def Obligations.ChannelStaysUntilReset : Prop :=
  ∀ s t : State, Inv s → s.life = .configured → s.ports.rst = false → step s = .next t → t.chan = s.chan

-- Invariants --------------------------------------------------------------------------------------------------------

/-- The invariant holds right after reset. Its parts statusKnown, errorData and sampleSign hold there by the model's
choice, log 1, of 0 for RSP_STATUS, RSP_DATA and SAMPLE, to which R20 gives no reset value; the other parts rest on the
values R20 gives. -/
def Obligations.InvariantAtReset : Prop := Inv State.reset

/-- R36, R37, R39, and R42 to R44 (the spec's own inferences) with what they rest on: every step keeps
them, from every state that has them. On a reset step the parts statusKnown, errorData and sampleSign hold by the model's
choice, logs 1 and 9, that RSP_STATUS, RSP_DATA and SAMPLE are 0 after it; R36 and R39 leave them unspecified there. -/
def Obligations.StepKeepsTheInvariant : Prop := ∀ s t : State, Inv s → step s = .next t → Inv t

/-- From a state that has the invariant every step answers a next state: the model's two faults (log 6) guard states no
run reaches. -/
def Obligations.NoStepStops : Prop := ∀ s : State, Inv s → ∃ t, step s = .next t

/-- R45 (the spec's own inference: "No rule reads a register whose value is unspecified"), R261: the values of the registers that reset leaves open are never seen: two states that agree on what R20 gives
at reset, under the same environment, look the same from outside for ever. So nothing seen
from outside rests on the values of log 1; of the statements only InvariantAtReset and StepKeepsTheInvariant lean on any of them. -/
def Obligations.OpenResetValuesNeverShow : Prop :=
  ∀ (s t : State) (k : Nat), ResetLike s → ResetLike t → s.inputs = t.inputs → s.drawn = t.drawn →
    sameViewOutcome (runFor k s) (runFor k t)
end

