-- ==== Sys2Proof/Laws/State.lean ====
section
/-! SUPPORT. One lemma per field per named update of the state, so that no proof unfolds a record update. -/

namespace Sys2Proof.Machine

@[simp] theorem State.log_life (e : PinEvent) (s : State) : (s.log e).life = s.life := rfl
@[simp] theorem State.log_clkpin (e : PinEvent) (s : State) : (s.log e).clkpin = s.clkpin := rfl
@[simp] theorem State.log_datpin (e : PinEvent) (s : State) : (s.log e).datpin = s.datpin := rfl
@[simp] theorem State.log_gain (e : PinEvent) (s : State) : (s.log e).gain = s.gain := rfl
@[simp] theorem State.log_chan (e : PinEvent) (s : State) : (s.log e).chan = s.chan := rfl
@[simp] theorem State.log_bitord (e : PinEvent) (s : State) : (s.log e).bitord = s.bitord := rfl
@[simp] theorem State.log_byteord (e : PinEvent) (s : State) : (s.log e).byteord = s.byteord := rfl
@[simp] theorem State.log_pwr (e : PinEvent) (s : State) : (s.log e).pwr = s.pwr := rfl
@[simp] theorem State.log_sck (e : PinEvent) (s : State) : (s.log e).sck = s.sck := rfl
@[simp] theorem State.log_cmd (e : PinEvent) (s : State) : (s.log e).cmd = s.cmd := rfl
@[simp] theorem State.log_ph (e : PinEvent) (s : State) : (s.log e).ph = s.ph := rfl
@[simp] theorem State.log_pcnt (e : PinEvent) (s : State) : (s.log e).pcnt = s.pcnt := rfl
@[simp] theorem State.log_acc (e : PinEvent) (s : State) : (s.log e).acc = s.acc := rfl
@[simp] theorem State.log_bytes (e : PinEvent) (s : State) : (s.log e).bytes = s.bytes := rfl
@[simp] theorem State.log_frame (e : PinEvent) (s : State) : (s.log e).frame = s.frame := rfl
@[simp] theorem State.log_sample (e : PinEvent) (s : State) : (s.log e).sample = s.sample := rfl
@[simp] theorem State.log_rspValid (e : PinEvent) (s : State) : (s.log e).rspValid = s.rspValid := rfl
@[simp] theorem State.log_rspStatus (e : PinEvent) (s : State) : (s.log e).rspStatus = s.rspStatus := rfl
@[simp] theorem State.log_rspData (e : PinEvent) (s : State) : (s.log e).rspData = s.rspData := rfl
@[simp] theorem State.log_trace (e : PinEvent) (s : State) : (s.log e).trace = s.trace ++ [e] := rfl
@[simp] theorem State.log_responses (e : PinEvent) (s : State) : (s.log e).responses = s.responses := rfl
@[simp] theorem State.log_inputs (e : PinEvent) (s : State) : (s.log e).inputs = s.inputs := rfl
@[simp] theorem State.log_drawn (e : PinEvent) (s : State) : (s.log e).drawn = s.drawn := rfl

@[simp] theorem State.respond_life (st : StatusCode) (d : Word) (s : State) : (s.respond st d).life = s.life := rfl
@[simp] theorem State.respond_clkpin (st : StatusCode) (d : Word) (s : State) : (s.respond st d).clkpin = s.clkpin := rfl
@[simp] theorem State.respond_datpin (st : StatusCode) (d : Word) (s : State) : (s.respond st d).datpin = s.datpin := rfl
@[simp] theorem State.respond_gain (st : StatusCode) (d : Word) (s : State) : (s.respond st d).gain = s.gain := rfl
@[simp] theorem State.respond_chan (st : StatusCode) (d : Word) (s : State) : (s.respond st d).chan = s.chan := rfl
@[simp] theorem State.respond_bitord (st : StatusCode) (d : Word) (s : State) : (s.respond st d).bitord = s.bitord := rfl
@[simp] theorem State.respond_byteord (st : StatusCode) (d : Word) (s : State) : (s.respond st d).byteord = s.byteord := rfl
@[simp] theorem State.respond_pwr (st : StatusCode) (d : Word) (s : State) : (s.respond st d).pwr = s.pwr := rfl
@[simp] theorem State.respond_sck (st : StatusCode) (d : Word) (s : State) : (s.respond st d).sck = s.sck := rfl
@[simp] theorem State.respond_cmd (st : StatusCode) (d : Word) (s : State) : (s.respond st d).cmd = s.cmd := rfl
@[simp] theorem State.respond_ph (st : StatusCode) (d : Word) (s : State) : (s.respond st d).ph = .idle := rfl
@[simp] theorem State.respond_pcnt (st : StatusCode) (d : Word) (s : State) : (s.respond st d).pcnt = s.pcnt := rfl
@[simp] theorem State.respond_acc (st : StatusCode) (d : Word) (s : State) : (s.respond st d).acc = s.acc := rfl
@[simp] theorem State.respond_bytes (st : StatusCode) (d : Word) (s : State) : (s.respond st d).bytes = s.bytes := rfl
@[simp] theorem State.respond_frame (st : StatusCode) (d : Word) (s : State) : (s.respond st d).frame = s.frame := rfl
@[simp] theorem State.respond_sample (st : StatusCode) (d : Word) (s : State) : (s.respond st d).sample = s.sample := rfl
@[simp] theorem State.respond_rspValid (st : StatusCode) (d : Word) (s : State) : (s.respond st d).rspValid = true := rfl
@[simp] theorem State.respond_rspStatus (st : StatusCode) (d : Word) (s : State) : (s.respond st d).rspStatus = st := rfl
@[simp] theorem State.respond_rspData (st : StatusCode) (d : Word) (s : State) : (s.respond st d).rspData = d := rfl
@[simp] theorem State.respond_trace (st : StatusCode) (d : Word) (s : State) : (s.respond st d).trace = s.trace := rfl
@[simp] theorem State.respond_responses (st : StatusCode) (d : Word) (s : State) : (s.respond st d).responses = s.responses ++ [⟨st, d⟩] := rfl
@[simp] theorem State.respond_inputs (st : StatusCode) (d : Word) (s : State) : (s.respond st d).inputs = s.inputs := rfl
@[simp] theorem State.respond_drawn (st : StatusCode) (d : Word) (s : State) : (s.respond st d).drawn = s.drawn := rfl

@[simp] theorem State.raise_life (e : CmdError) (s : State) : (s.raise e).life = s.life := rfl
@[simp] theorem State.raise_clkpin (e : CmdError) (s : State) : (s.raise e).clkpin = s.clkpin := rfl
@[simp] theorem State.raise_datpin (e : CmdError) (s : State) : (s.raise e).datpin = s.datpin := rfl
@[simp] theorem State.raise_gain (e : CmdError) (s : State) : (s.raise e).gain = s.gain := rfl
@[simp] theorem State.raise_chan (e : CmdError) (s : State) : (s.raise e).chan = s.chan := rfl
@[simp] theorem State.raise_bitord (e : CmdError) (s : State) : (s.raise e).bitord = s.bitord := rfl
@[simp] theorem State.raise_byteord (e : CmdError) (s : State) : (s.raise e).byteord = s.byteord := rfl
@[simp] theorem State.raise_pwr (e : CmdError) (s : State) : (s.raise e).pwr = s.pwr := rfl
@[simp] theorem State.raise_sck (e : CmdError) (s : State) : (s.raise e).sck = s.sck := rfl
@[simp] theorem State.raise_cmd (e : CmdError) (s : State) : (s.raise e).cmd = s.cmd := rfl
@[simp] theorem State.raise_ph (e : CmdError) (s : State) : (s.raise e).ph = .idle := rfl
@[simp] theorem State.raise_pcnt (e : CmdError) (s : State) : (s.raise e).pcnt = s.pcnt := rfl
@[simp] theorem State.raise_acc (e : CmdError) (s : State) : (s.raise e).acc = s.acc := rfl
@[simp] theorem State.raise_bytes (e : CmdError) (s : State) : (s.raise e).bytes = s.bytes := rfl
@[simp] theorem State.raise_frame (e : CmdError) (s : State) : (s.raise e).frame = s.frame := rfl
@[simp] theorem State.raise_sample (e : CmdError) (s : State) : (s.raise e).sample = s.sample := rfl
@[simp] theorem State.raise_rspValid (e : CmdError) (s : State) : (s.raise e).rspValid = true := rfl
@[simp] theorem State.raise_rspStatus (e : CmdError) (s : State) : (s.raise e).rspStatus = e.code := rfl
@[simp] theorem State.raise_rspData (e : CmdError) (s : State) : (s.raise e).rspData = 0#32 := rfl
@[simp] theorem State.raise_trace (e : CmdError) (s : State) : (s.raise e).trace = s.trace := rfl
@[simp] theorem State.raise_responses (e : CmdError) (s : State) : (s.raise e).responses = s.responses ++ [⟨e.code, 0#32⟩] := rfl
@[simp] theorem State.raise_inputs (e : CmdError) (s : State) : (s.raise e).inputs = s.inputs := rfl
@[simp] theorem State.raise_drawn (e : CmdError) (s : State) : (s.raise e).drawn = s.drawn := rfl

@[simp] theorem State.beginCommand_life (s : State) : (s.beginCommand).life = s.life := rfl
@[simp] theorem State.beginCommand_clkpin (s : State) : (s.beginCommand).clkpin = s.clkpin := rfl
@[simp] theorem State.beginCommand_datpin (s : State) : (s.beginCommand).datpin = s.datpin := rfl
@[simp] theorem State.beginCommand_gain (s : State) : (s.beginCommand).gain = s.gain := rfl
@[simp] theorem State.beginCommand_chan (s : State) : (s.beginCommand).chan = s.chan := rfl
@[simp] theorem State.beginCommand_bitord (s : State) : (s.beginCommand).bitord = s.bitord := rfl
@[simp] theorem State.beginCommand_byteord (s : State) : (s.beginCommand).byteord = s.byteord := rfl
@[simp] theorem State.beginCommand_pwr (s : State) : (s.beginCommand).pwr = s.pwr := rfl
@[simp] theorem State.beginCommand_sck (s : State) : (s.beginCommand).sck = s.sck := rfl
@[simp] theorem State.beginCommand_cmd (s : State) : (s.beginCommand).cmd = s.cmd := rfl
@[simp] theorem State.beginCommand_ph (s : State) : (s.beginCommand).ph = s.ph := rfl
@[simp] theorem State.beginCommand_pcnt (s : State) : (s.beginCommand).pcnt = s.pcnt := rfl
@[simp] theorem State.beginCommand_acc (s : State) : (s.beginCommand).acc = s.acc := rfl
@[simp] theorem State.beginCommand_bytes (s : State) : (s.beginCommand).bytes = s.bytes := rfl
@[simp] theorem State.beginCommand_frame (s : State) : (s.beginCommand).frame = s.frame := rfl
@[simp] theorem State.beginCommand_sample (s : State) : (s.beginCommand).sample = s.sample := rfl
@[simp] theorem State.beginCommand_rspValid (s : State) : (s.beginCommand).rspValid = false := rfl
@[simp] theorem State.beginCommand_rspStatus (s : State) : (s.beginCommand).rspStatus = s.rspStatus := rfl
@[simp] theorem State.beginCommand_rspData (s : State) : (s.beginCommand).rspData = s.rspData := rfl
@[simp] theorem State.beginCommand_trace (s : State) : (s.beginCommand).trace = s.trace := rfl
@[simp] theorem State.beginCommand_responses (s : State) : (s.beginCommand).responses = s.responses := rfl
@[simp] theorem State.beginCommand_inputs (s : State) : (s.beginCommand).inputs = s.inputs := rfl
@[simp] theorem State.beginCommand_drawn (s : State) : (s.beginCommand).drawn = s.drawn := rfl

@[simp] theorem State.latch_life (i : Instr) (s : State) : (s.latch i).life = s.life := rfl
@[simp] theorem State.latch_clkpin (i : Instr) (s : State) : (s.latch i).clkpin = s.clkpin := rfl
@[simp] theorem State.latch_datpin (i : Instr) (s : State) : (s.latch i).datpin = s.datpin := rfl
@[simp] theorem State.latch_gain (i : Instr) (s : State) : (s.latch i).gain = s.gain := rfl
@[simp] theorem State.latch_chan (i : Instr) (s : State) : (s.latch i).chan = s.chan := rfl
@[simp] theorem State.latch_bitord (i : Instr) (s : State) : (s.latch i).bitord = s.bitord := rfl
@[simp] theorem State.latch_byteord (i : Instr) (s : State) : (s.latch i).byteord = s.byteord := rfl
@[simp] theorem State.latch_pwr (i : Instr) (s : State) : (s.latch i).pwr = s.pwr := rfl
@[simp] theorem State.latch_sck (i : Instr) (s : State) : (s.latch i).sck = s.sck := rfl
@[simp] theorem State.latch_cmd (i : Instr) (s : State) : (s.latch i).cmd = encode i := rfl
@[simp] theorem State.latch_ph (i : Instr) (s : State) : (s.latch i).ph = s.ph := rfl
@[simp] theorem State.latch_pcnt (i : Instr) (s : State) : (s.latch i).pcnt = s.pcnt := rfl
@[simp] theorem State.latch_acc (i : Instr) (s : State) : (s.latch i).acc = s.acc := rfl
@[simp] theorem State.latch_bytes (i : Instr) (s : State) : (s.latch i).bytes = s.bytes := rfl
@[simp] theorem State.latch_frame (i : Instr) (s : State) : (s.latch i).frame = s.frame := rfl
@[simp] theorem State.latch_sample (i : Instr) (s : State) : (s.latch i).sample = s.sample := rfl
@[simp] theorem State.latch_rspValid (i : Instr) (s : State) : (s.latch i).rspValid = s.rspValid := rfl
@[simp] theorem State.latch_rspStatus (i : Instr) (s : State) : (s.latch i).rspStatus = s.rspStatus := rfl
@[simp] theorem State.latch_rspData (i : Instr) (s : State) : (s.latch i).rspData = s.rspData := rfl
@[simp] theorem State.latch_trace (i : Instr) (s : State) : (s.latch i).trace = s.trace := rfl
@[simp] theorem State.latch_responses (i : Instr) (s : State) : (s.latch i).responses = s.responses := rfl
@[simp] theorem State.latch_inputs (i : Instr) (s : State) : (s.latch i).inputs = s.inputs := rfl
@[simp] theorem State.latch_drawn (i : Instr) (s : State) : (s.latch i).drawn = s.drawn := rfl

@[simp] theorem State.enter_life (p : Phase) (s : State) : (s.enter p).life = s.life := rfl
@[simp] theorem State.enter_clkpin (p : Phase) (s : State) : (s.enter p).clkpin = s.clkpin := rfl
@[simp] theorem State.enter_datpin (p : Phase) (s : State) : (s.enter p).datpin = s.datpin := rfl
@[simp] theorem State.enter_gain (p : Phase) (s : State) : (s.enter p).gain = s.gain := rfl
@[simp] theorem State.enter_chan (p : Phase) (s : State) : (s.enter p).chan = s.chan := rfl
@[simp] theorem State.enter_bitord (p : Phase) (s : State) : (s.enter p).bitord = s.bitord := rfl
@[simp] theorem State.enter_byteord (p : Phase) (s : State) : (s.enter p).byteord = s.byteord := rfl
@[simp] theorem State.enter_pwr (p : Phase) (s : State) : (s.enter p).pwr = s.pwr := rfl
@[simp] theorem State.enter_sck (p : Phase) (s : State) : (s.enter p).sck = s.sck := rfl
@[simp] theorem State.enter_cmd (p : Phase) (s : State) : (s.enter p).cmd = s.cmd := rfl
@[simp] theorem State.enter_ph (p : Phase) (s : State) : (s.enter p).ph = p := rfl
@[simp] theorem State.enter_pcnt (p : Phase) (s : State) : (s.enter p).pcnt = s.pcnt := rfl
@[simp] theorem State.enter_acc (p : Phase) (s : State) : (s.enter p).acc = s.acc := rfl
@[simp] theorem State.enter_bytes (p : Phase) (s : State) : (s.enter p).bytes = s.bytes := rfl
@[simp] theorem State.enter_frame (p : Phase) (s : State) : (s.enter p).frame = s.frame := rfl
@[simp] theorem State.enter_sample (p : Phase) (s : State) : (s.enter p).sample = s.sample := rfl
@[simp] theorem State.enter_rspValid (p : Phase) (s : State) : (s.enter p).rspValid = s.rspValid := rfl
@[simp] theorem State.enter_rspStatus (p : Phase) (s : State) : (s.enter p).rspStatus = s.rspStatus := rfl
@[simp] theorem State.enter_rspData (p : Phase) (s : State) : (s.enter p).rspData = s.rspData := rfl
@[simp] theorem State.enter_trace (p : Phase) (s : State) : (s.enter p).trace = s.trace := rfl
@[simp] theorem State.enter_responses (p : Phase) (s : State) : (s.enter p).responses = s.responses := rfl
@[simp] theorem State.enter_inputs (p : Phase) (s : State) : (s.enter p).inputs = s.inputs := rfl
@[simp] theorem State.enter_drawn (p : Phase) (s : State) : (s.enter p).drawn = s.drawn := rfl

@[simp] theorem State.startFrame_life (s : State) : (s.startFrame).life = s.life := rfl
@[simp] theorem State.startFrame_clkpin (s : State) : (s.startFrame).clkpin = s.clkpin := rfl
@[simp] theorem State.startFrame_datpin (s : State) : (s.startFrame).datpin = s.datpin := rfl
@[simp] theorem State.startFrame_gain (s : State) : (s.startFrame).gain = s.gain := rfl
@[simp] theorem State.startFrame_chan (s : State) : (s.startFrame).chan = s.chan := rfl
@[simp] theorem State.startFrame_bitord (s : State) : (s.startFrame).bitord = s.bitord := rfl
@[simp] theorem State.startFrame_byteord (s : State) : (s.startFrame).byteord = s.byteord := rfl
@[simp] theorem State.startFrame_pwr (s : State) : (s.startFrame).pwr = s.pwr := rfl
@[simp] theorem State.startFrame_sck (s : State) : (s.startFrame).sck = s.sck := rfl
@[simp] theorem State.startFrame_cmd (s : State) : (s.startFrame).cmd = s.cmd := rfl
@[simp] theorem State.startFrame_ph (s : State) : (s.startFrame).ph = .poll := rfl
@[simp] theorem State.startFrame_pcnt (s : State) : (s.startFrame).pcnt = 0#5 := rfl
@[simp] theorem State.startFrame_acc (s : State) : (s.startFrame).acc = 0#8 := rfl
@[simp] theorem State.startFrame_bytes (s : State) : (s.startFrame).bytes = s.bytes := rfl
@[simp] theorem State.startFrame_frame (s : State) : (s.startFrame).frame = s.frame := rfl
@[simp] theorem State.startFrame_sample (s : State) : (s.startFrame).sample = s.sample := rfl
@[simp] theorem State.startFrame_rspValid (s : State) : (s.startFrame).rspValid = s.rspValid := rfl
@[simp] theorem State.startFrame_rspStatus (s : State) : (s.startFrame).rspStatus = s.rspStatus := rfl
@[simp] theorem State.startFrame_rspData (s : State) : (s.startFrame).rspData = s.rspData := rfl
@[simp] theorem State.startFrame_trace (s : State) : (s.startFrame).trace = s.trace := rfl
@[simp] theorem State.startFrame_responses (s : State) : (s.startFrame).responses = s.responses := rfl
@[simp] theorem State.startFrame_inputs (s : State) : (s.startFrame).inputs = s.inputs := rfl
@[simp] theorem State.startFrame_drawn (s : State) : (s.startFrame).drawn = s.drawn := rfl

@[simp] theorem State.commitConfig_life (s : State) : (s.commitConfig).life = .configured := rfl
@[simp] theorem State.commitConfig_clkpin (s : State) : (s.commitConfig).clkpin = clockPinField s.cmd := rfl
@[simp] theorem State.commitConfig_datpin (s : State) : (s.commitConfig).datpin = dataPinField s.cmd := rfl
@[simp] theorem State.commitConfig_gain (s : State) : (s.commitConfig).gain = initGainField s.cmd := rfl
@[simp] theorem State.commitConfig_chan (s : State) : (s.commitConfig).chan = initChannelField s.cmd := rfl
@[simp] theorem State.commitConfig_bitord (s : State) : (s.commitConfig).bitord = bitOrderField s.cmd := rfl
@[simp] theorem State.commitConfig_byteord (s : State) : (s.commitConfig).byteord = byteOrderField s.cmd := rfl
@[simp] theorem State.commitConfig_pwr (s : State) : (s.commitConfig).pwr = .active := rfl
@[simp] theorem State.commitConfig_sck (s : State) : (s.commitConfig).sck = s.sck := rfl
@[simp] theorem State.commitConfig_cmd (s : State) : (s.commitConfig).cmd = s.cmd := rfl
@[simp] theorem State.commitConfig_ph (s : State) : (s.commitConfig).ph = s.ph := rfl
@[simp] theorem State.commitConfig_pcnt (s : State) : (s.commitConfig).pcnt = s.pcnt := rfl
@[simp] theorem State.commitConfig_acc (s : State) : (s.commitConfig).acc = s.acc := rfl
@[simp] theorem State.commitConfig_bytes (s : State) : (s.commitConfig).bytes = s.bytes := rfl
@[simp] theorem State.commitConfig_frame (s : State) : (s.commitConfig).frame = s.frame := rfl
@[simp] theorem State.commitConfig_sample (s : State) : (s.commitConfig).sample = s.sample := rfl
@[simp] theorem State.commitConfig_rspValid (s : State) : (s.commitConfig).rspValid = s.rspValid := rfl
@[simp] theorem State.commitConfig_rspStatus (s : State) : (s.commitConfig).rspStatus = s.rspStatus := rfl
@[simp] theorem State.commitConfig_rspData (s : State) : (s.commitConfig).rspData = s.rspData := rfl
@[simp] theorem State.commitConfig_trace (s : State) : (s.commitConfig).trace = s.trace := rfl
@[simp] theorem State.commitConfig_responses (s : State) : (s.commitConfig).responses = s.responses := rfl
@[simp] theorem State.commitConfig_inputs (s : State) : (s.commitConfig).inputs = s.inputs := rfl
@[simp] theorem State.commitConfig_drawn (s : State) : (s.commitConfig).drawn = s.drawn := rfl

@[simp] theorem State.countPulse_life (s : State) : (s.countPulse).life = s.life := rfl
@[simp] theorem State.countPulse_clkpin (s : State) : (s.countPulse).clkpin = s.clkpin := rfl
@[simp] theorem State.countPulse_datpin (s : State) : (s.countPulse).datpin = s.datpin := rfl
@[simp] theorem State.countPulse_gain (s : State) : (s.countPulse).gain = s.gain := rfl
@[simp] theorem State.countPulse_chan (s : State) : (s.countPulse).chan = s.chan := rfl
@[simp] theorem State.countPulse_bitord (s : State) : (s.countPulse).bitord = s.bitord := rfl
@[simp] theorem State.countPulse_byteord (s : State) : (s.countPulse).byteord = s.byteord := rfl
@[simp] theorem State.countPulse_pwr (s : State) : (s.countPulse).pwr = s.pwr := rfl
@[simp] theorem State.countPulse_sck (s : State) : (s.countPulse).sck = s.sck := rfl
@[simp] theorem State.countPulse_cmd (s : State) : (s.countPulse).cmd = s.cmd := rfl
@[simp] theorem State.countPulse_ph (s : State) : (s.countPulse).ph = s.ph := rfl
@[simp] theorem State.countPulse_pcnt (s : State) : (s.countPulse).pcnt = s.pcnt + 1#5 := rfl
@[simp] theorem State.countPulse_acc (s : State) : (s.countPulse).acc = s.acc := rfl
@[simp] theorem State.countPulse_bytes (s : State) : (s.countPulse).bytes = s.bytes := rfl
@[simp] theorem State.countPulse_frame (s : State) : (s.countPulse).frame = s.frame := rfl
@[simp] theorem State.countPulse_sample (s : State) : (s.countPulse).sample = s.sample := rfl
@[simp] theorem State.countPulse_rspValid (s : State) : (s.countPulse).rspValid = s.rspValid := rfl
@[simp] theorem State.countPulse_rspStatus (s : State) : (s.countPulse).rspStatus = s.rspStatus := rfl
@[simp] theorem State.countPulse_rspData (s : State) : (s.countPulse).rspData = s.rspData := rfl
@[simp] theorem State.countPulse_trace (s : State) : (s.countPulse).trace = s.trace := rfl
@[simp] theorem State.countPulse_responses (s : State) : (s.countPulse).responses = s.responses := rfl
@[simp] theorem State.countPulse_inputs (s : State) : (s.countPulse).inputs = s.inputs := rfl
@[simp] theorem State.countPulse_drawn (s : State) : (s.countPulse).drawn = s.drawn := rfl

@[simp] theorem State.assembleBit_life (b : Level) (s : State) : (s.assembleBit b).life = s.life := by
  unfold State.assembleBit; split <;> [split <;> rfl; rfl]
@[simp] theorem State.assembleBit_clkpin (b : Level) (s : State) : (s.assembleBit b).clkpin = s.clkpin := by
  unfold State.assembleBit; split <;> [split <;> rfl; rfl]
@[simp] theorem State.assembleBit_datpin (b : Level) (s : State) : (s.assembleBit b).datpin = s.datpin := by
  unfold State.assembleBit; split <;> [split <;> rfl; rfl]
@[simp] theorem State.assembleBit_gain (b : Level) (s : State) : (s.assembleBit b).gain = s.gain := by
  unfold State.assembleBit; split <;> [split <;> rfl; rfl]
@[simp] theorem State.assembleBit_chan (b : Level) (s : State) : (s.assembleBit b).chan = s.chan := by
  unfold State.assembleBit; split <;> [split <;> rfl; rfl]
@[simp] theorem State.assembleBit_bitord (b : Level) (s : State) : (s.assembleBit b).bitord = s.bitord := by
  unfold State.assembleBit; split <;> [split <;> rfl; rfl]
@[simp] theorem State.assembleBit_byteord (b : Level) (s : State) : (s.assembleBit b).byteord = s.byteord := by
  unfold State.assembleBit; split <;> [split <;> rfl; rfl]
@[simp] theorem State.assembleBit_pwr (b : Level) (s : State) : (s.assembleBit b).pwr = s.pwr := by
  unfold State.assembleBit; split <;> [split <;> rfl; rfl]
@[simp] theorem State.assembleBit_sck (b : Level) (s : State) : (s.assembleBit b).sck = s.sck := by
  unfold State.assembleBit; split <;> [split <;> rfl; rfl]
@[simp] theorem State.assembleBit_cmd (b : Level) (s : State) : (s.assembleBit b).cmd = s.cmd := by
  unfold State.assembleBit; split <;> [split <;> rfl; rfl]
@[simp] theorem State.assembleBit_ph (b : Level) (s : State) : (s.assembleBit b).ph = s.ph := by
  unfold State.assembleBit; split <;> [split <;> rfl; rfl]
@[simp] theorem State.assembleBit_pcnt (b : Level) (s : State) : (s.assembleBit b).pcnt = s.pcnt := by
  unfold State.assembleBit; split <;> [split <;> rfl; rfl]
@[simp] theorem State.assembleBit_frame (b : Level) (s : State) : (s.assembleBit b).frame = s.frame := by
  unfold State.assembleBit; split <;> [split <;> rfl; rfl]
@[simp] theorem State.assembleBit_sample (b : Level) (s : State) : (s.assembleBit b).sample = s.sample := by
  unfold State.assembleBit; split <;> [split <;> rfl; rfl]
@[simp] theorem State.assembleBit_rspValid (b : Level) (s : State) : (s.assembleBit b).rspValid = s.rspValid := by
  unfold State.assembleBit; split <;> [split <;> rfl; rfl]
@[simp] theorem State.assembleBit_rspStatus (b : Level) (s : State) : (s.assembleBit b).rspStatus = s.rspStatus := by
  unfold State.assembleBit; split <;> [split <;> rfl; rfl]
@[simp] theorem State.assembleBit_rspData (b : Level) (s : State) : (s.assembleBit b).rspData = s.rspData := by
  unfold State.assembleBit; split <;> [split <;> rfl; rfl]
@[simp] theorem State.assembleBit_trace (b : Level) (s : State) : (s.assembleBit b).trace = s.trace := by
  unfold State.assembleBit; split <;> [split <;> rfl; rfl]
@[simp] theorem State.assembleBit_responses (b : Level) (s : State) : (s.assembleBit b).responses = s.responses := by
  unfold State.assembleBit; split <;> [split <;> rfl; rfl]
@[simp] theorem State.assembleBit_inputs (b : Level) (s : State) : (s.assembleBit b).inputs = s.inputs := by
  unfold State.assembleBit; split <;> [split <;> rfl; rfl]
@[simp] theorem State.assembleBit_drawn (b : Level) (s : State) : (s.assembleBit b).drawn = s.drawn := by
  unfold State.assembleBit; split <;> [split <;> rfl; rfl]

@[simp] theorem State.advance_life (s : State) : (s.advance).life = s.life := by
  unfold State.advance; split <;> rfl
@[simp] theorem State.advance_clkpin (s : State) : (s.advance).clkpin = s.clkpin := by
  unfold State.advance; split <;> rfl
@[simp] theorem State.advance_datpin (s : State) : (s.advance).datpin = s.datpin := by
  unfold State.advance; split <;> rfl
@[simp] theorem State.advance_gain (s : State) : (s.advance).gain = s.gain := by
  unfold State.advance; split <;> rfl
@[simp] theorem State.advance_chan (s : State) : (s.advance).chan = s.chan := by
  unfold State.advance; split <;> rfl
@[simp] theorem State.advance_bitord (s : State) : (s.advance).bitord = s.bitord := by
  unfold State.advance; split <;> rfl
@[simp] theorem State.advance_byteord (s : State) : (s.advance).byteord = s.byteord := by
  unfold State.advance; split <;> rfl
@[simp] theorem State.advance_pwr (s : State) : (s.advance).pwr = s.pwr := by
  unfold State.advance; split <;> rfl
@[simp] theorem State.advance_sck (s : State) : (s.advance).sck = s.sck := by
  unfold State.advance; split <;> rfl
@[simp] theorem State.advance_cmd (s : State) : (s.advance).cmd = s.cmd := by
  unfold State.advance; split <;> rfl
@[simp] theorem State.advance_ph (s : State) : (s.advance).ph = s.ph := by
  unfold State.advance; split <;> rfl
@[simp] theorem State.advance_pcnt (s : State) : (s.advance).pcnt = s.pcnt := by
  unfold State.advance; split <;> rfl
@[simp] theorem State.advance_acc (s : State) : (s.advance).acc = s.acc := by
  unfold State.advance; split <;> rfl
@[simp] theorem State.advance_bytes (s : State) : (s.advance).bytes = s.bytes := by
  unfold State.advance; split <;> rfl
@[simp] theorem State.advance_frame (s : State) : (s.advance).frame = s.frame := by
  unfold State.advance; split <;> rfl
@[simp] theorem State.advance_sample (s : State) : (s.advance).sample = s.sample := by
  unfold State.advance; split <;> rfl
@[simp] theorem State.advance_rspValid (s : State) : (s.advance).rspValid = s.rspValid := by
  unfold State.advance; split <;> rfl
@[simp] theorem State.advance_rspStatus (s : State) : (s.advance).rspStatus = s.rspStatus := by
  unfold State.advance; split <;> rfl
@[simp] theorem State.advance_rspData (s : State) : (s.advance).rspData = s.rspData := by
  unfold State.advance; split <;> rfl
@[simp] theorem State.advance_trace (s : State) : (s.advance).trace = s.trace := by
  unfold State.advance; split <;> rfl
@[simp] theorem State.advance_responses (s : State) : (s.advance).responses = s.responses := by
  unfold State.advance; split <;> rfl

@[simp] theorem State.advance_cons {s : State} {io : PortSample} {rest : List PortSample} (h : s.inputs = io :: rest) :
    s.advance = { s with inputs := rest } := by
  simp [State.advance, h]

@[simp] theorem State.ports_cons {s : State} {io : PortSample} {rest : List PortSample} (h : s.inputs = io :: rest) :
    s.ports = io := by
  simp [State.ports, h]

/-- After a reset every register is as `State.reset` has it; the environment stays (R260). -/
theorem State.resetBlock_eq (s : State) :
    s.resetBlock = { State.reset with inputs := s.inputs, drawn := s.drawn } := rfl

end Sys2Proof.Machine
end

