-- ==== Sys2Proof/Laws/Ops.lean ====
section
/-! SUPPORT. What each shared operation can do, said once: pin events, acceptance, checks, the pulse table. -/

namespace Sys2Proof.Machine

/-- `IO_CAN_FAIL` is true, so `io_fail` alone decides (R66). -/
@[simp] theorem eventFails_eq (io : PortSample) : eventFails io = io.ioFail := by simp [eventFails, Config.ioCanFail]

/-- A pin event either is logged as completed or as failed (R66). -/
theorem pinEvent_eq (io : PortSample) (good bad : PinEvent) (s : State) :
    pinEvent io good bad s = if io.ioFail then .error (s.log bad) else .ok (s.log good) := by
  simp [pinEvent]

/-- What follows a PinCfgOut (R62, R225). -/
theorem whenDone_pinCfgOut (io : PortSample) (p : Pin) (s : State) (k : State → Result) :
    whenDone (pinCfgOut io p s) k =
      if io.ioFail then .next ((s.log (.cfgOutFailed p)).raise .io) else k (s.log (.cfgOut p)) := by
  by_cases h : io.ioFail <;> simp [pinCfgOut, pinEvent_eq, whenDone, h]

/-- What follows a PinCfgIn (R63, R225). -/
theorem whenDone_pinCfgIn (io : PortSample) (p : Pin) (s : State) (k : State → Result) :
    whenDone (pinCfgIn io p s) k =
      if io.ioFail then .next ((s.log (.cfgInFailed p)).raise .io) else k (s.log (.cfgIn p)) := by
  by_cases h : io.ioFail <;> simp [pinCfgIn, pinEvent_eq, whenDone, h]

/-- What follows a PinWrite: SCK follows a completed write only (R64, R66, R225). -/
theorem whenDone_pinWrite (io : PortSample) (p : Pin) (l : Level) (s : State) (k : State → Result) :
    whenDone (pinWrite io p l s) k =
      if io.ioFail then .next ((s.log (.writeFailed p l)).raise .io)
      else k { s.log (.write p l) with sck := l } := by
  by_cases h : io.ioFail <;> simp [pinWrite, pinEvent_eq, whenDone, Except.map, h]

/-- What follows a PinRead (R65, R225). -/
theorem whenDone_pinRead (io : PortSample) (p : Pin) (s : State) (k : State → Result) :
    whenDone (pinRead io p s) k =
      if io.ioFail then .next ((s.log (.readFailed p)).raise .io) else k (s.log (.read p io.dout)) := by
  by_cases h : io.ioFail <;> simp [pinRead, pinEvent_eq, whenDone, h]

/-- Acceptance of a command that a check refuses (R212). -/
@[simp] theorem State.checked_some (e : CmdError) (start : State → State) (s : State) :
    s.checked (some e) start = s.beginCommand.raise e := rfl

/-- Acceptance of a command that passes its checks (R212). -/
@[simp] theorem State.checked_none (start : State → State) (s : State) :
    s.checked none start = start s.beginCommand := rfl

/-- A refused command: only the response registers, PH and the response list differ (R239 to R241). -/
theorem raise_beginCommand (e : CmdError) (s : State) :
    s.beginCommand.raise e =
      { s with
        rspStatus := e.code, rspData := 0#32, rspValid := true, ph := .idle
        responses := s.responses ++ [⟨e.code, 0#32⟩] } := rfl

/-- The lifecycle check passes exactly in the wanted state. -/
theorem lifecycleCheck_eq_none {want : Life} {s : State} : lifecycleCheck want s = none ↔ s.life = want := by
  simp [lifecycleCheck]

/-- The power gate passes exactly while Active (R193). -/
theorem powerGate_eq_none {s : State} : powerGate s = none ↔ s.pwr = .active := by
  cases h : s.pwr <;> simp [powerGate, h]

/-- The gain check passes exactly on 32, 64 and 128 (R24). -/
theorem gainCheck_eq_none {g : Gain} : gainCheck g = none ↔ g = 32#8 ∨ g = 64#8 ∨ g = 128#8 := by
  unfold gainCheck
  split <;> simp_all [gainInSet, or_assoc]

/-- The pair check passes exactly on pairs of the table (R18). -/
theorem pairCheck_eq_none {c : Channel} {g : Gain} : pairCheck c g = none ↔ validPair c g = true := by
  simp [pairCheck]

/-- The three rows of the pulse table, and no other (R93). -/
theorem validPair_iff {c : Channel} {g : Gain} :
    validPair c g = true ↔ (c = .a ∧ (g = 128#8 ∨ g = 64#8)) ∨ (c = .b ∧ g = 32#8) := by
  cases c
  · by_cases h1 : g = 128#8
    · simp [validPair, idlePulses, h1]
    · by_cases h2 : g = 64#8 <;> simp [validPair, idlePulses, h1, h2]
  · by_cases h : g = 32#8 <;> simp [validPair, idlePulses, h]

/-- A valid pair has a pulse count, 25 to 27 (R9, R93). -/
theorem totalPulses_of_valid {c : Channel} {g : Gain} (h : validPair c g = true) :
    ∃ n, totalPulses c g = some n ∧ 25 ≤ n ∧ n ≤ 27 := by
  rcases validPair_iff.mp h with ⟨rfl, rfl | rfl⟩ | ⟨rfl, rfl⟩ <;>
    simp [totalPulses, idlePulses, Config.frameBits]

end Sys2Proof.Machine
end

