-- ==== Sys2Proof/Laws/PerInstr.lean ====
section
/-! SUPPORT. One lemma per constructor of Instr for the family OpcodeField: the encoding of a command carries the opcode of its row (spec/30_encoding.md R104). -/

namespace Sys2Proof.Laws.OpcodeField

/-- The opcode of R104's map. -/
def opcodeOf : Instr → BitVec 4
  | .init _ _ _ _ _ _ => 0x1#4
  | .setgain _ => 0x2#4
  | .getgain => 0x3#4
  | .setchan _ => 0x4#4
  | .getchan => 0x5#4
  | .rdy => 0x6#4
  | .rdraw => 0x7#4
  | .pwrdn => 0x8#4
  | .pwrup => 0x9#4

/-- The word of `i` has `i`'s opcode in bits 31 to 28. -/
def Statement (i : Instr) : Prop := opField (encode i) = opcodeOf i

theorem init (clockPin dataPin : Pin) (gain : Gain) (channel : Channel) (bitOrder byteOrder : Order) :
    Statement (.init clockPin dataPin gain channel bitOrder byteOrder) := by
  unfold Statement opField encode placeAt opcodeOf
  ext j hj
  have h4 : j < 4 := hj
  interval_cases j <;> simp

theorem setgain (gain : Gain) : Statement (.setgain gain) := by
  unfold Statement opField encode placeAt opcodeOf
  ext j hj
  have h4 : j < 4 := hj
  interval_cases j <;> simp

theorem getgain : Statement .getgain := by unfold Statement; decide

theorem setchan (channel : Channel) : Statement (.setchan channel) := by unfold Statement; cases channel <;> decide

theorem getchan : Statement .getchan := by unfold Statement; decide

theorem rdy : Statement .rdy := by unfold Statement; decide

theorem rdraw : Statement .rdraw := by unfold Statement; decide

theorem pwrdn : Statement .pwrdn := by unfold Statement; decide

theorem pwrup : Statement .pwrup := by unfold Statement; decide

end Sys2Proof.Laws.OpcodeField
end

