-- ==== Sys2Proof/Laws/Step.lean ====
section
/-! SUPPORT. What one step can do, said once: every phase's step as an equation, every command's acceptance answers a next state, and the inversion of `step`. -/

namespace Sys2Proof.Machine

/-- Every command's acceptance answers a next state; none faults and none is refused (R212). -/
theorem exec_next (i : Instr) (s : State) : ∃ t, exec i s = .next t := by
  cases i <;> exact ⟨_, rfl⟩

/-- Acceptance of any word answers a next state (R103, R212). -/
theorem accept_next (w : Word) (s : State) : ∃ t, accept w s = .next t := by
  unfold accept
  split
  · exact exec_next _ _
  · exact ⟨_, rfl⟩

/-- PH = iOut (R213, R225). -/
theorem phaseStep_iOut (io : PortSample) {s : State} (h : s.ph = .iOut) :
    phaseStep io s =
      if io.ioFail then .next ((s.log (.cfgOutFailed (clockPinField s.cmd))).raise .io)
      else .next ((s.log (.cfgOut (clockPinField s.cmd))).enter .iIn) := by
  simp only [phaseStep, h, seqIOut, whenDone_pinCfgOut]

/-- PH = iIn (R214, R225). -/
theorem phaseStep_iIn (io : PortSample) {s : State} (h : s.ph = .iIn) :
    phaseStep io s =
      if io.ioFail then .next ((s.log (.cfgInFailed (dataPinField s.cmd))).raise .io)
      else .next ((s.log (.cfgIn (dataPinField s.cmd))).enter .iWr) := by
  simp only [phaseStep, h, seqIIn, whenDone_pinCfgIn]

/-- PH = iWr (R215, R225). -/
theorem phaseStep_iWr (io : PortSample) {s : State} (h : s.ph = .iWr) :
    phaseStep io s =
      if io.ioFail then .next ((s.log (.writeFailed (clockPinField s.cmd) false)).raise .io)
      else .next ((State.commitConfig { s.log (.write (clockPinField s.cmd) false) with sck := false }).respond okCode 0#32) := by
  simp only [phaseStep, h, seqIWr, whenDone_pinWrite]

/-- PH = qRd (R222, R225). -/
theorem phaseStep_qRd (io : PortSample) {s : State} (h : s.ph = .qRd) :
    phaseStep io s =
      if io.ioFail then .next ((s.log (.readFailed s.datpin)).raise .io)
      else .next ((s.log (.read s.datpin io.dout)).respond okCode (if dataReady io.dout then 1#32 else 0#32)) := by
  simp only [phaseStep, h, seqQRd, whenDone_pinRead]

/-- PH = dWr (R223, R225). -/
theorem phaseStep_dWr (io : PortSample) {s : State} (h : s.ph = .dWr) :
    phaseStep io s =
      if io.ioFail then .next ((s.log (.writeFailed s.clkpin true)).raise .io)
      else .next ({ s.log (.write s.clkpin true) with sck := true, pwr := .poweredDown }.respond okCode 0#32) := by
  simp only [phaseStep, h, seqDWr, whenDone_pinWrite]

/-- PH = uWr (R224, R225). -/
theorem phaseStep_uWr (io : PortSample) {s : State} (h : s.ph = .uWr) :
    phaseStep io s =
      if io.ioFail then .next ((s.log (.writeFailed s.clkpin false)).raise .io)
      else .next ({ s.log (.write s.clkpin false) with sck := false, pwr := .active }.startFrame) := by
  simp only [phaseStep, h, seqUWr, whenDone_pinWrite]

/-- PH = poll (R217, R225). -/
theorem phaseStep_poll (io : PortSample) {s : State} (h : s.ph = .poll) :
    phaseStep io s =
      if io.ioFail then .next ((s.log (.readFailed s.datpin)).raise .io)
      else .next ((s.log (.read s.datpin io.dout)).enter (if dataReady io.dout then .ckHi else .poll)) := by
  simp only [phaseStep, h, seqPoll, whenDone_pinRead]

/-- PH = ckHi (R218, R225). -/
theorem phaseStep_ckHi (io : PortSample) {s : State} (h : s.ph = .ckHi) :
    phaseStep io s =
      if io.ioFail then .next ((s.log (.writeFailed s.clkpin true)).raise .io)
      else .next (State.enter .ckLo { s.log (.write s.clkpin true) with sck := true }) := by
  simp only [phaseStep, h, seqCkHi, whenDone_pinWrite]

/-- PH = ckLo (R219, R225). -/
theorem phaseStep_ckLo (io : PortSample) {s : State} (h : s.ph = .ckLo) :
    phaseStep io s =
      if io.ioFail then .next ((s.log (.writeFailed s.clkpin false)).raise .io)
      else .next (State.enter .smp { s.log (.write s.clkpin false) with sck := false }) := by
  simp only [phaseStep, h, seqCkLo, whenDone_pinWrite]

/-- PH = SMP (R220, R225). -/
theorem phaseStep_smp (io : PortSample) {s : State} (h : s.ph = .smp) :
    phaseStep io s =
      if io.ioFail then .next ((s.log (.readFailed s.datpin)).raise .io)
      else nextSlot ((s.log (.read s.datpin io.dout)).assembleBit io.dout).countPulse := by
  simp only [phaseStep, h, seqSmp, whenDone_pinRead]

/-- The phases but SMP always answer a next state (R213 to R219, R222 to R225). -/
theorem phaseStep_not_smp (io : PortSample) {s : State} (h : s.ph ≠ .smp) : ∃ t, phaseStep io s = .next t := by
  cases hp : s.ph
  case idle => exact ⟨s, by simp [phaseStep, hp]⟩
  case smp => exact absurd hp h
  all_goals
    first
      | rw [phaseStep_iOut io hp]
      | rw [phaseStep_iIn io hp]
      | rw [phaseStep_iWr io hp]
      | rw [phaseStep_qRd io hp]
      | rw [phaseStep_dWr io hp]
      | rw [phaseStep_uWr io hp]
      | rw [phaseStep_poll io hp]
      | rw [phaseStep_ckHi io hp]
      | rw [phaseStep_ckLo io hp]
    split <;> exact ⟨_, rfl⟩

/-- A slot that is not the last leads to CK_HI (R220). -/
theorem nextSlot_continue {s : State} {total : Nat} (h : totalPulses s.chan s.gain = some total)
    (hn : s.pcnt.toNat ≠ total) : nextSlot s = .next (s.enter .ckHi) := by
  simp [nextSlot, h, hn]

/-- The last slot ends the frame read (R220, R221). -/
theorem nextSlot_end {s : State} {total : Nat} (h : totalPulses s.chan s.gain = some total)
    (hn : s.pcnt.toNat = total) : nextSlot s = endFrame s := by
  simp [nextSlot, h, hn]

/-- The end of RDRAW's frame read (R221). -/
theorem endFrame_rdraw {s : State} (h : s.cmd = encode .rdraw) :
    endFrame s = .next ({ s with
      frame := pack s.bytes s.byteord, sample := sextFrame (pack s.bytes s.byteord) }.respond okCode
        (sextFrame (pack s.bytes s.byteord))) := by
  simp [endFrame, h]

/-- The end of PWRUP's frame read (R221). -/
theorem endFrame_pwrup {s : State} (h : s.cmd = encode .pwrup) :
    endFrame s = .next ({ s with frame := pack s.bytes s.byteord }.respond okCode 0#32) := by
  have hne : encode .pwrup ≠ encode .rdraw := by decide
  simp [endFrame, h, hne]

/-- A step under a listed port sample. -/
theorem step_cons {s : State} {io : PortSample} {rest : List PortSample} (h : s.inputs = io :: rest) :
    step s = tick io { s with inputs := rest } := by
  simp [step, State.ports_cons h, State.advance_cons h]

/-- What a step can be: a reset, a wait, an acceptance, or the pin event of the current phase (R210). -/
theorem step_cases (s : State) :
    (s.ports.rst = true ∧ step s = .next s.advance.resetBlock) ∨
    (s.ports.rst = false ∧ s.ph = .idle ∧ s.ports.cmdValid = false ∧ step s = .next s.advance) ∨
    (s.ports.rst = false ∧ s.ph = .idle ∧ s.ports.cmdValid = true ∧ step s = accept s.ports.cmdWord s.advance) ∨
    (s.ports.rst = false ∧ s.ph ≠ .idle ∧ step s = phaseStep s.ports s.advance) := by
  cases hr : s.ports.rst
  · by_cases hi : s.ph = .idle
    · cases hc : s.ports.cmdValid <;> simp [step, tick, hr, hi, hc]
    · simp [step, tick, hr, hi]
  · simp [step, tick, hr]

end Sys2Proof.Machine
end

