-- ==== Sys2Proof/Laws/Time.lean ====
section
/-! SUPPORT. The premise of R273, one lemma per pin event that can follow: since when the clock pin has been high. -/

namespace Sys2Proof.Safety

open Sys2Proof.Machine

variable (clk p : Pin) (l : Level) (timed : List (PinEvent × Nat)) (at_ : Nat)

/-- Driving the clock high counts from here, or from earlier if it was high already. -/
@[simp] theorem clockHighSince_write_high :
    clockHighSince clk (timed ++ [(.write clk true, at_)]) = some ((clockHighSince clk timed).getD at_) := by
  simp [clockHighSince]

/-- Driving the clock low ends the wait. -/
@[simp] theorem clockHighSince_write_low : clockHighSince clk (timed ++ [(.write clk false, at_)]) = none := by
  simp [clockHighSince]

/-- A failed write to the clock leaves its level open (U5). -/
@[simp] theorem clockHighSince_writeFailed : clockHighSince clk (timed ++ [(.writeFailed clk l, at_)]) = none := by
  simp [clockHighSince]

/-- A read does not touch the clock. -/
@[simp] theorem clockHighSince_read :
    clockHighSince clk (timed ++ [(.read p l, at_)]) = clockHighSince clk timed := by
  simp [clockHighSince]

/-- A failed read does not touch the clock. -/
@[simp] theorem clockHighSince_readFailed :
    clockHighSince clk (timed ++ [(.readFailed p, at_)]) = clockHighSince clk timed := by
  simp [clockHighSince]

/-- PWRDN's write at `down`, the clock low before: the wait is over from `down` plus the threshold on, not sooner. -/
theorem powerDownWaited_after_pwrdn {s t : State} {times : List Nat} {down now : Nat}
    (hlow : clockHighSince s.clkpin (s.trace.zip times) = none) (hlen : times.length = s.trace.length)
    (htrace : t.trace = s.trace ++ [.write s.clkpin true]) (hclk : t.clkpin = s.clkpin) (hpwr : t.pwr = .poweredDown) :
    powerDownWaited t (times ++ [down]) now ↔ down + 60000 ≤ now := by
  simp [powerDownWaited, htrace, hclk, hpwr, List.zip_append hlen.symm, hlow, hlen, Config.powerDownMicros]

end Sys2Proof.Safety
end

