-- ==== Sys2Proof/Laws/WellFormed.lean ====
section
/-! SUPPORT. Every term of Instr is well formed: its operand types hold exactly the ranges of the formats (spec/30_encoding.md R100). -/

namespace Sys2Proof

/-- No term of `Instr` is ill formed (R100). -/
theorem wellFormed_all (i : Instr) : i.wellFormed = true := by
  have h8 : ∀ v : BitVec 8, v.toNat ≤ 255 := fun v => Nat.le_of_lt_succ v.isLt
  cases i <;> simp [Instr.wellFormed, h8]

end Sys2Proof
end

