-- ==== Sys2Proof/Tests/Slice0.lean ====
section
/-! SUPPORT. The model's own tests, with expected results from spec/95_test_vectors.md and the examples of the rules, and a witness for the hypotheses of every statement. -/

namespace Sys2Proof.Tests

open Sys2Proof.Machine Sys2Proof.Safety

/-- A field of the next state, if there is one. -/
def nextField {α : Type} (r : Result) (f : State → α) : Option α :=
  match r with
  | .next t => some (f t)
  | .fault _ => none
  | .refused _ => none

/-- The response of the next state. -/
def response (r : Result) : Option (Bool × StatusCode × Word) :=
  nextField r (fun t => (t.rspValid, t.rspStatus, t.rspData))

/-- Configured, Active, idle, (A,128), CLKPIN = 5, DATPIN = 6, both orders MSB-first. -/
def blockA : State :=
  { State.reset with life := .configured, clkpin := 5#8, datpin := 6#8, gain := 128#8 }

/-- The same at (A,64). -/
def blockA64 : State := { blockA with gain := 64#8 }

/-- Configured at (B,32), both orders LSB-first. -/
def blockB : State := { blockA with gain := 32#8, chan := .b, bitord := .lsbFirst, byteord := .lsbFirst }

/-- `blockA` powered down. -/
def blockDown : State := { blockA with pwr := .poweredDown, sck := true }

/-- `s` in phase `p` with one port sample to come. -/
def inPhase (p : Phase) (io : PortSample) (s : State) : State := { s with ph := p, inputs := [io] }

/-- A port sample whose pin event fails. -/
def failing : PortSample := { level false with ioFail := true }

/-- A port sample with reset asserted. -/
def resetting : PortSample := { level false with rst := true }

-- Decoding: words written out from the encodings of spec/30_encoding.md ------------------------------------------------

/-- R107's example. -/
theorem test_decode_init :
    decode 0b0001_00000101_00000110_10000000_0_0_0_0#32 = .command (.init 5#8 6#8 128#8 .a .msbFirst .msbFirst) := by
  decide

/-- V55, field by field. -/
theorem test_decode_init_lsb :
    decode 0b0001_00010001_00011011_00100000_1_1_1_0#32 = .command (.init 17#8 27#8 32#8 .b .lsbFirst .lsbFirst) := by
  decide

/-- V56: bitOrder and byteOrder are told apart. -/
theorem test_decode_init_orders :
    decode 0x10203404#32 = .command (.init 2#8 3#8 64#8 .a .lsbFirst .msbFirst) := by decide

theorem test_decode_setgain : decode 0b0010_00000000000000000000_01100100#32 = .command (.setgain 100#8) := by decide
theorem test_decode_getgain : decode 0b0011_0000000000000000000000000000#32 = .command .getgain := by decide
theorem test_decode_setchan : decode 0b0100_000000000000000000000000000_1#32 = .command (.setchan .b) := by decide
theorem test_decode_getchan : decode 0b0101_0000000000000000000000000000#32 = .command .getchan := by decide
theorem test_decode_rdy : decode 0b0110_0000000000000000000000000000#32 = .command .rdy := by decide
theorem test_decode_rdraw : decode 0b0111_0000000000000000000000000000#32 = .command .rdraw := by decide
theorem test_decode_pwrdn : decode 0b1000_0000000000000000000000000000#32 = .command .pwrdn := by decide
theorem test_decode_pwrup : decode 0b1001_0000000000000000000000000000#32 = .command .pwrup := by decide

/-- The host's reading of a table row's bits. -/
theorem test_decode_table_word : decodeTableWord 32 0x20000040 = some (.setgain 64#8) := by decide

/-- R96, V56. -/
theorem test_encode_init : encode (.init 2#8 3#8 64#8 .a .lsbFirst .msbFirst) = 0x10203404#32 := by decide

/-- R107: operands in the assembler syntax. -/
theorem test_asm_init :
    (Instr.init 5#8 6#8 128#8 .a .msbFirst .msbFirst).operandsAsm = ["5", "6", "128", "A", "MSB", "MSB"] := by decide

-- Ill-formed words: one for each check (R105) ---------------------------------------------------------------------------

/-- V57. -/
theorem test_illformed_init :
    wellFormedWord 0x10506801#32 = false ∧ decode 0x10506801#32 = .illegal .reservedBit := by decide
/-- V51. -/
theorem test_illformed_setgain :
    wellFormedWord 0x20000140#32 = false ∧ decode 0x20000140#32 = .illegal .reservedBit := by decide
theorem test_illformed_getgain :
    wellFormedWord 0x30000001#32 = false ∧ decode 0x30000001#32 = .illegal .reservedBit := by decide
theorem test_illformed_setchan :
    wellFormedWord 0x40000002#32 = false ∧ decode 0x40000002#32 = .illegal .reservedBit := by decide
theorem test_illformed_getchan :
    wellFormedWord 0x58000000#32 = false ∧ decode 0x58000000#32 = .illegal .reservedBit := by decide
theorem test_illformed_rdy :
    wellFormedWord 0x60010000#32 = false ∧ decode 0x60010000#32 = .illegal .reservedBit := by decide
/-- V83. -/
theorem test_illformed_rdraw :
    wellFormedWord 0x70000001#32 = false ∧ decode 0x70000001#32 = .illegal .reservedBit := by decide
theorem test_illformed_pwrdn :
    wellFormedWord 0x80000100#32 = false ∧ decode 0x80000100#32 = .illegal .reservedBit := by decide
theorem test_illformed_pwrup :
    wellFormedWord 0x94000000#32 = false ∧ decode 0x94000000#32 = .illegal .reservedBit := by decide
/-- V81, V82. -/
theorem test_illformed_op :
    wellFormedWord 0#32 = false ∧ decode 0#32 = .illegal .noCommand ∧
    wellFormedWord 0xA0000000#32 = false ∧ decode 0xA0000000#32 = .illegal .noCommand ∧
    wellFormedWord 0xFFFFFFFF#32 = false ∧ decode 0xFFFFFFFF#32 = .illegal .noCommand := by decide

-- The data path ---------------------------------------------------------------------------------------------------------

/-- V10, V12. -/
theorem test_msb_byte :
    [true, false, true, false, true, false, true, false].foldl msbStep 0#8 = 0xAA#8 ∧
    [false, false, false, true, false, false, true, false].foldl msbStep 0#8 = 0x12#8 := by decide
/-- V11, V13. -/
theorem test_lsb_byte :
    [true, false, true, false, true, false, true, false].foldl lsbStep 0#8 = 0x55#8 ∧
    [false, false, false, true, false, false, true, false].foldl lsbStep 0#8 = 0x48#8 := by decide
/-- V20, V21. -/
theorem test_pack :
    pack ⟨0x12#8, 0x34#8, 0x56#8⟩ .msbFirst = 0x123456#24 ∧ pack ⟨0x12#8, 0x34#8, 0x56#8⟩ .lsbFirst = 0x563412#24 := by
  decide
/-- V30, V31, V36. -/
theorem test_decode_frame :
    decodeFrame 0x7FFFFF#24 = 0x007FFFFF#32 ∧ decodeFrame 0x800000#24 = 0xFF800000#32 ∧
    signedValue 0x800001#24 = -8388607 := by decide
/-- V2: readBit on a high data pin. -/
theorem test_read_bit :
    (match readBit { blockA with inputs := [level false, level false, level true] } with
      | .done b t => some (b, t.trace, t.sck)
      | .ioFailure _ => none
      | .waiting => none) = some (true, [.write 5#8 true, .write 5#8 false, .read 6#8 true], false) := by decide
/-- V6: the second write of the pulse fails, no read is made, SCK stays 1. -/
theorem test_read_bit_fails :
    (match readBit { blockA with inputs := [level false, failing, level true] } with
      | .done _ _ => none
      | .ioFailure t => some (t.trace, t.sck)
      | .waiting => none) = some ([.write 5#8 true, .writeFailed 5#8 false], true) := by decide

-- One step of every command ---------------------------------------------------------------------------------------------

/-- V54, R212: INIT on a fresh block is latched; V52: with (B,128) it is refused. -/
theorem test_init_accepted :
    nextField (step (State.reset.withFetchWord 32 0x10506800)) (fun t => (t.ph, t.cmd, t.life)) =
      some (.iOut, 0x10506800#32, .unconfigured) ∧
    response (step (State.reset.withFetchWord 32 0x10506808)) = some (true, 0x1#4, 0#32) := by decide
/-- V55, R215: the commit. -/
theorem test_init_commit :
    nextField (step (inPhase .iWr (level true) { State.reset with cmd := 0x1111B20E#32 }))
      (fun t => ((t.life, t.clkpin, t.datpin, t.gain), (t.chan, t.bitord, t.byteord))) =
      some ((.configured, 17#8, 27#8, 32#8), (.b, .lsbFirst, .lsbFirst)) := by decide
/-- V40. -/
theorem test_setgain : nextField (step (blockA.withFetchWord 32 0x20000040)) State.gain = some 64#8 := by decide
/-- V43. -/
theorem test_setgain_rejected :
    nextField (step (blockA.withFetchWord 32 0x20000020)) (fun t => (t.gain, t.rspStatus)) = some (128#8, 0x1#4) := by
  decide
/-- V50. -/
theorem test_getgain : response (step (blockA64.withFetchWord 32 0x30000000)) = some (true, 0#4, 0x40#32) := by decide
/-- V67. -/
theorem test_setchan : response (step (blockB.withFetchWord 32 0x40000001)) = some (true, 0#4, 0#32) := by decide
/-- V64. -/
theorem test_setchan_rejected :
    nextField (step (blockA.withFetchWord 32 0x40000001)) (fun t => (t.chan, t.rspStatus)) = some (.a, 0x1#4) := by decide
/-- V68. -/
theorem test_getchan : response (step (blockB.withFetchWord 32 0x50000000)) = some (true, 0#4, 1#32) := by decide
/-- V71. -/
theorem test_rdy_low : response (step (inPhase .qRd (level false) blockA)) = some (true, 0#4, 1#32) := by decide
/-- V72. -/
theorem test_rdy_high_powered_down :
    nextField (step (inPhase .qRd (level true) blockDown)) (fun t => (t.rspData, t.trace)) =
      some (0#32, [.read 6#8 true]) := by decide
/-- P1, the last slot: PCNT 25, the frame packed, the sample answered. -/
theorem test_rdraw_end :
    nextField (step (inPhase .smp (level true)
        { blockA with cmd := 0x70000000#32, pcnt := 24#5, bytes := ⟨0x12#8, 0x34#8, 0x56#8⟩ }))
      (fun t => (t.pcnt, t.frame, t.sample, t.rspData)) =
      some (25#5, 0x123456#24, 0x00123456#32, 0x00123456#32) := by decide
/-- V74. -/
theorem test_rdraw_powered_down :
    response (step (blockDown.withFetchWord 32 0x70000000)) = some (true, 0x3#4, 0#32) := by decide
/-- V75. -/
theorem test_pwrdn :
    nextField (step (inPhase .dWr (level false) blockA)) (fun t => (t.pwr, t.sck, t.trace)) =
      some (.poweredDown, true, [.write 5#8 true]) := by decide
/-- V84. -/
theorem test_pwrdn_fails :
    nextField (step (inPhase .dWr failing blockA)) (fun t => (t.pwr, t.sck, t.rspStatus)) =
      some (.active, false, 0x2#4) := by decide
/-- R273, R280: PWRDN's write at 1000 ns and a read of RDY's at 5000 ns; the host may rely on sleep 60000 ns after the
write, and not a nanosecond sooner. -/
theorem test_powerDownWaited :
    powerDownWaited { blockDown with trace := [.write 5#8 true, .read 6#8 true] } [1000, 5000] 61000 ∧
    ¬ powerDownWaited { blockDown with trace := [.write 5#8 true, .read 6#8 true] } [1000, 5000] 60999 := by
  refine ⟨⟨rfl, rfl, 1000, rfl, by decide⟩, ?_⟩
  rintro ⟨-, -, since, hs, hle⟩
  obtain rfl : 1000 = since := Option.some.inj hs
  exact absurd hle (by decide)
/-- V77. -/
theorem test_pwrup_active : response (step (blockA.withFetchWord 32 0x90000000)) = some (true, 0#4, 0#32) := by decide
/-- V78, the first event. -/
theorem test_pwrup_wakes :
    nextField (step (inPhase .uWr (level false) blockDown)) (fun t => (t.pwr, t.sck, t.ph, t.pcnt)) =
      some (.active, false, .poll, 0#5) := by decide
/-- V79, V80. -/
theorem test_unconfigured :
    response (step (State.reset.withFetchWord 32 0x30000000)) = some (true, 0x3#4, 0#32) ∧
    response (step (State.reset.withFetchWord 32 0x20000064)) = some (true, 0x3#4, 0#32) := by decide
/-- V83: decode is checked before the power gate. -/
theorem test_illegal_first :
    response (step (blockDown.withFetchWord 32 0x70000001)) = some (true, 0x4#4, 0#32) := by decide
/-- P4, the eighth bit of byte 0: 1,0,1,0,0,1,0 then 1 makes 0xA5. -/
theorem test_smp_eighth_bit :
    nextField (step (inPhase .smp (level true) { blockA with pcnt := 7#5, acc := 0x52#8 }))
      (fun t => (t.bytes, t.acc, t.pcnt, t.ph)) = some (⟨0xA5#8, 0#8, 0#8⟩, 0#8, 8#5, .ckHi) := by decide
/-- R260: reset in the middle of a frame. -/
theorem test_reset_mid_frame :
    nextField (step (inPhase .ckLo resetting { blockA with sck := true })) (fun t => (t.life, t.sck, t.ph, t.rspValid)) =
      some (.unconfigured, false, .idle, false) := by decide

-- Witnesses: the hypotheses of every statement are met ------------------------------------------------------------------

theorem witness_EncodeDecodeRoundTrip : ∃ w i, decode w = .command i := ⟨0x30000000#32, .getgain, by decide⟩

theorem witness_OpcodeMapAgreesWithDecoder :
    ∃ (w : Word) (r : OpcodeRow), r ∈ opcodeRows ∧ w &&& r.mask = r.value :=
  ⟨0x30000000#32, ⟨"GETGAIN", 0x30000000#32, 0xFFFFFFFF#32⟩, by decide, by decide⟩

theorem witness_IllegalWordsAreRefused_op :
    ∃ (s : State) (io : PortSample) (rest : List PortSample), s.ph = .idle ∧ s.inputs = io :: rest ∧ io.rst = false ∧
      io.cmdValid = true ∧ opWithoutCommand io.cmdWord :=
  ⟨{ blockA with inputs := [offer 0xA0000000#32] }, offer 0xA0000000#32, [], rfl, rfl, rfl, rfl,
    Or.inr (by decide)⟩

theorem witness_IllegalWordsAreRefused_reserved :
    ∃ (s : State) (io : PortSample) (rest : List PortSample), s.ph = .idle ∧ s.inputs = io :: rest ∧ io.rst = false ∧
      io.cmdValid = true ∧ reservedBitSet io.cmdWord :=
  ⟨{ blockA with inputs := [offer 0x10506801#32] }, offer 0x10506801#32, [], rfl, rfl, rfl, rfl,
    Or.inl ⟨by decide, by decide⟩⟩

theorem witness_StepRunsTheDecodedCommand :
    ∃ (s : State) (io : PortSample) (rest : List PortSample) (i : Instr), s.ph = .idle ∧ s.inputs = io :: rest ∧
      io.rst = false ∧ io.cmdValid = true ∧ decode io.cmdWord = .command i :=
  ⟨{ blockA with inputs := [offer 0x20000040#32] }, offer 0x20000040#32, [], .setgain 64#8, rfl, rfl, rfl, rfl,
    by decide⟩

/-- Every busy phase is met, with any sample. -/
theorem witness_busy_phases (p : Phase) (h : p ≠ .idle) (io : PortSample) :
    ∃ (s : State) (rest : List PortSample), s.ph ≠ .idle ∧ s.ph = p ∧ s.inputs = io :: rest :=
  ⟨inPhase p io blockA, [], h, rfl, rfl⟩

theorem witness_BusyBlockServesNoWord :
    ∃ (s : State) (io : PortSample) (rest : List PortSample), s.ph ≠ .idle ∧ s.inputs = io :: rest :=
  ⟨inPhase .poll (level true) blockA, level true, [], by decide, rfl⟩

theorem witness_IdleBlockWaits :
    ∃ (s : State) (io : PortSample) (rest : List PortSample), s.ph = .idle ∧ s.inputs = io :: rest ∧ io.rst = false ∧
      io.cmdValid = false :=
  ⟨{ blockA with inputs := [level true] }, level true, [], rfl, rfl, rfl, rfl⟩

theorem witness_ResetFromAnyState :
    ∃ (s : State) (io : PortSample) (rest : List PortSample), s.inputs = io :: rest ∧ io.rst = true :=
  ⟨inPhase .ckLo resetting blockA, resetting, [], rfl, rfl⟩

/-- A completed and a failed event, and the phases' codes. -/
theorem witness_PhaseTable :
    (∃ s t : State, s.ph ≠ .idle ∧ s.ports.rst = false ∧ s.ports.ioFail = false ∧ step s = .next t) ∧
    ∃ s t : State, s.ph ≠ .idle ∧ s.ports.rst = false ∧ s.ports.ioFail = true ∧ step s = .next t :=
  ⟨⟨inPhase .ckHi (level true) blockA, _, by decide, rfl, rfl, rfl⟩,
    ⟨inPhase .ckHi failing blockA, _, by decide, rfl, rfl, rfl⟩⟩

/-- Every phase's clause, on both levels of the data pin. -/
theorem witness_SequencerPhases (p : Phase) (b : Level) :
    ∃ (s : State) (io : PortSample) (rest : List PortSample), s.inputs = io :: rest ∧ smooth io = true ∧ io.dout = b ∧
      s.ph = p :=
  ⟨inPhase p (level b) blockA, level b, [], rfl, rfl, rfl, rfl⟩

/-- The clause of RDRAW's acceptance. -/
theorem witness_SequencerPhases_rdraw :
    ∃ (s : State) (io : PortSample) (rest : List PortSample), s.inputs = io :: rest ∧ smooth io = true ∧
      s.life = .configured ∧ s.pwr = .active :=
  ⟨{ blockA with inputs := [level false] }, level false, [], rfl, rfl, rfl, rfl⟩

/-- SampleStep's hypotheses, at a given count. -/
def sampleAt (n : BitVec 5) (w : Word) : State := inPhase .smp (level true) { blockA with pcnt := n, cmd := w }

theorem witness_SampleStep (n : BitVec 5) (w : Word) :
    (sampleAt n w).ph = .smp ∧ (sampleAt n w).inputs = level true :: [] ∧ smooth (level true) = true ∧
      totalPulses (sampleAt n w).chan (sampleAt n w).gain = some 25 ∧ (sampleAt n w).pcnt = n ∧ (sampleAt n w).cmd = w :=
  ⟨rfl, rfl, rfl, rfl, rfl, rfl⟩

/-- Its clauses at the boundaries: last data slot of a byte, other data slot, idle slot, last slot of RDRAW and PWRUP. -/
theorem witness_SampleStep_clauses :
    (23#5).toNat < 24 ∧ (23#5).toNat % 8 = 7 ∧ (22#5).toNat % 8 ≠ 7 ∧ 24 ≤ (24#5).toNat ∧
      (23#5 + 1#5).toNat ≠ 25 ∧ (24#5 + 1#5).toNat = 25 ∧ blockA.bitord = .msbFirst ∧ blockB.bitord = .lsbFirst ∧
      totalPulses blockB.chan blockB.gain = some 26 := by decide

theorem witness_FailedPinEventEndsTheCommand (p : Phase) (h : p ≠ .idle) :
    ∃ (s : State) (io : PortSample) (rest : List PortSample), s.ph ≠ .idle ∧ s.ph = p ∧ s.inputs = io :: rest ∧
      io.rst = false ∧ io.ioFail = true :=
  ⟨inPhase p failing blockA, failing, [], h, rfl, rfl, rfl, rfl⟩

/-- SETGAIN: accepted on both channels, refused for the gain, for the pair, for the lifecycle. -/
theorem witness_SetgainSetsTheGain :
    (blockA.life = .configured ∧ inTable blockA.chan 64#8) ∧ (blockB.life = .configured ∧ inTable blockB.chan 32#8) ∧
    (blockA.life = .configured ∧ (100#8 ≠ 32#8 ∧ 100#8 ≠ 64#8 ∧ 100#8 ≠ 128#8)) ∧
    (blockA.life = .configured ∧ ¬ inTable blockA.chan 32#8) ∧ State.reset.life = .unconfigured := by decide

theorem witness_GetgainAnswersTheGain : blockA.life = .configured ∧ State.reset.life = .unconfigured := by decide

theorem witness_SetchanSetsTheChannel :
    (blockA.life = .configured ∧ inTable .a blockA.gain) ∧ (blockB.life = .configured ∧ inTable .b blockB.gain) ∧
    (blockA.life = .configured ∧ ¬ inTable .b blockA.gain) ∧ State.reset.life = .unconfigured := by decide

theorem witness_GetchanAnswersTheChannel :
    (blockA.life = .configured ∧ blockA.chan = .a) ∧ (blockB.life = .configured ∧ blockB.chan = .b) ∧
    State.reset.life = .unconfigured := by decide

/-- Any three smooth samples serve INIT. -/
def initBlock : State := { State.reset with inputs := [level true, level false, level true] }

theorem witness_InitConfigures :
    initBlock.life = .unconfigured ∧ inTable .b 32#8 ∧ initBlock.inputs = level true :: level false :: level true :: [] ∧
      smooth (level true) = true ∧ smooth (level false) = true := by decide

theorem witness_ConstructFromAnyState :
    ∃ (s : State) (io0 io1 : PortSample), s.inputs = io0 :: io1 :: level false :: level true :: level false :: [] ∧
      io0.rst = true ∧ io1.rst = false ∧ io1.cmdValid = true ∧
      io1.cmdWord = encode (.init 5#8 6#8 128#8 .a .msbFirst .msbFirst) ∧ inTable .a 128#8 ∧
      smooth (level false) = true ∧ smooth (level true) = true :=
  ⟨{ blockDown with ph := .poll, inputs := [resetting, offer 0x10506800#32, level false, level true, level false] },
    resetting, offer 0x10506800#32, by decide⟩

theorem witness_SetgainThenGetgain :
    blockA.life = .configured ∧ inTable blockA.chan 64#8 ∧ ¬ inTable blockA.chan 32#8 := by decide

/-- The three causes of StateError, and the converse clause. -/
theorem witness_StateErrors :
    State.reset.life ≠ lifeWanted .getgain ∧
    blockA.life ≠ lifeWanted (.init 5#8 6#8 128#8 .a .msbFirst .msbFirst) ∧
    (blockDown.life = .configured ∧ blockDown.pwr = .poweredDown) ∧
    nextField (exec .getgain State.reset) State.responses = some (State.reset.responses ++ [⟨3#4, 0#32⟩]) := by decide

/-- A bad gain, a bad pair, each command that can have one, and the converse clause. -/
theorem witness_ConfigurationErrors :
    (State.reset.life = lifeWanted (.init 5#8 6#8 0#8 .a .msbFirst .msbFirst) ∧
      operandsRejected State.reset (.init 5#8 6#8 0#8 .a .msbFirst .msbFirst) = true) ∧
    (blockA.life = lifeWanted (.setgain 32#8) ∧ operandsRejected blockA (.setgain 32#8) = true) ∧
    (blockA.life = lifeWanted (.setchan .b) ∧ operandsRejected blockA (.setchan .b) = true) ∧
    nextField (exec (.setchan .b) blockA) State.responses = some (blockA.responses ++ [⟨1#4, 0#32⟩]) := by decide

/-- A word refused at each of the four checks, one that passes, and a failing pin event. -/
theorem witness_ChecksComeInOrder :
    refusalOf 0x70000001#32 blockDown = some 4#4 ∧ refusalOf 0x20000064#32 State.reset = some 3#4 ∧
    refusalOf 0x70000000#32 blockDown = some 3#4 ∧ refusalOf 0x20000064#32 blockA = some 1#4 ∧
    refusalOf 0x70000000#32 blockA = none ∧ refusalOf 0x30000000#32 blockA = none ∧ blockA.ph = .idle ∧
    (offer 0x70000000#32).rst = false ∧ (offer 0x70000000#32).cmdValid = true ∧
    { blockA with inputs := [offer 0x70000000#32] }.inputs = offer 0x70000000#32 :: [] ∧
    (inPhase .poll failing blockA).ph ≠ .idle ∧ failing.ioFail = true ∧ failing.rst = false := by decide

theorem witness_RefusedWordChangesOnlyTheResponse :
    ∃ (w : Word) (s t : State), s.ph = .idle ∧ accept w s = .next t ∧ t.rspValid = true ∧ t.rspStatus ≠ 0#4 :=
  ⟨0#32, blockA, _, rfl, rfl, rfl, by decide⟩

/-- Every command answers a next state; the refusing and the going-on case both occur. -/
theorem witness_AcceptanceFrame (i : Instr) (s : State) : ∃ t, exec i s = .next t := by
  cases i <;> exact ⟨_, rfl⟩

theorem witness_RdyReportsReadiness (b : Level) :
    ∃ (s : State) (io : PortSample) (rest : List PortSample), s.life = .configured ∧ s.inputs = io :: rest ∧
      smooth io = true ∧ io.dout = b :=
  ⟨{ blockA with inputs := [level b] }, level b, [], rfl, rfl, rfl, rfl⟩

/-- Two polls that read 1, the one that reads 0, and 25 slots; for `blockB` 26 slots. -/
theorem witness_RdrawReadsOneFrame :
    blockA.life = .configured ∧ blockA.pwr = .active ∧ totalPulses blockA.chan blockA.gain = some 25 ∧
    (∀ io ∈ List.replicate 2 (level true), smooth io = true ∧ io.dout = true) ∧ smooth (level false) = true ∧
    (level false).dout = false ∧ (∀ io ∈ List.replicate 75 (level true), smooth io = true) ∧
    (List.replicate 75 (level true)).length = 3 * 25 ∧ totalPulses blockB.chan blockB.gain = some 26 ∧
    totalPulses blockA64.chan blockA64.gain = some 27 := by decide

theorem witness_RdrawReadsOneFrame_inputs (polls slots rest : List PortSample) (io : PortSample) :
    { blockA with inputs := polls ++ io :: (slots ++ rest) }.inputs = polls ++ io :: (slots ++ rest) := rfl

theorem witness_PollingNeverPulses :
    ∃ (s : State) (polls rest : List PortSample), s.ph = .poll ∧ s.inputs = polls ++ rest ∧ polls ≠ [] ∧
      ∀ io ∈ polls, smooth io = true ∧ io.dout = true :=
  ⟨{ blockA with ph := .poll, inputs := [level true, level true] }, [level true, level true], [], by decide⟩

theorem witness_FrameStartsAfterALowPoll :
    ∃ s t : State, step s = .next t ∧ s.ph ≠ .smp ∧ t.ph = .ckHi :=
  ⟨inPhase .poll (level false) blockA, _, rfl, by decide, rfl⟩

/-- A command that ends at once, and one that ends after three events. -/
theorem witness_SequencerAgreesWithPseudocode :
    blockA.ph = .idle ∧ (blockA.life = .configured → validPair blockA.chan blockA.gain = true) ∧
    (∀ io ∈ initBlock.inputs, unreset io = true) ∧ (perform .getgain blockA).isSome = true ∧
    (perform (.init 5#8 6#8 128#8 .a .msbFirst .msbFirst) initBlock).isSome = true := by decide

theorem witness_SequencerWaitsWithPseudocode :
    { blockA with inputs := [level true, level true] }.ph = .idle ∧
    validPair blockA.chan blockA.gain = true ∧ (∀ io ∈ [level true, level true], unreset io = true) ∧
    (perform .rdraw { blockA with inputs := [level true, level true] }).isNone = true := by decide

theorem witness_ShortCommandsEndWithinThreeSteps :
    Instr.rdy ≠ .rdraw ∧ Instr.rdy ≠ .pwrup ∧ (∀ io ∈ [level true, failing, level false], unreset io = true) ∧
    3 ≤ { blockA with inputs := [level true, failing, level false] }.inputs.length := by decide

theorem witness_FrameEndsWithinEightyOneSteps :
    ∃ s : State, validPair s.chan s.gain = true ∧ (s.cmd = encode .rdraw ∨ s.cmd = encode .pwrup) ∧ s.ph = .ckHi ∧
      s.pcnt = 0#5 ∧ (∀ io ∈ s.inputs, unreset io = true) ∧ 81 ≤ s.inputs.length :=
  ⟨{ blockA64 with ph := .ckHi, cmd := 0x70000000#32, inputs := List.replicate 81 (level true) }, by decide⟩

theorem witness_PwrdnHoldsTheClockHigh :
    ∃ (s : State) (io : PortSample) (rest : List PortSample), s.life = .configured ∧ s.pwr = .active ∧
      s.inputs = io :: rest ∧ smooth io = true :=
  ⟨{ blockA with inputs := [level true] }, level true, [], rfl, rfl, rfl, rfl⟩

theorem witness_PwrupFlushesOneFrame :
    blockDown.life = .configured ∧ blockDown.pwr = .poweredDown ∧
    totalPulses blockDown.chan blockDown.gain = some 25 ∧ smooth (level true) = true ∧
    (∀ io ∈ List.replicate 2 (level true), smooth io = true ∧ io.dout = true) ∧ smooth (level false) = true ∧
    (level false).dout = false ∧ (∀ io ∈ List.replicate 75 (level false), smooth io = true) ∧
    (List.replicate 75 (level false)).length = 3 * 25 := by decide

theorem witness_PwrupFlushesOneFrame_inputs (polls slots rest : List PortSample) (first io : PortSample) :
    { blockDown with inputs := first :: polls ++ io :: (slots ++ rest) }.inputs =
      first :: polls ++ io :: (slots ++ rest) := rfl

theorem witness_PowerCommandsAreIdempotent :
    (blockDown.life = .configured ∧ blockDown.pwr = .poweredDown) ∧ (blockA.life = .configured ∧ blockA.pwr = .active) := by
  decide

/-- The writers' clauses: an INIT commit and a SETGAIN that change what they write. -/
theorem witness_ConfigurationWriters :
    (∃ s t : State, step s = .next t ∧ s.ports.rst = false ∧ t.clkpin ≠ s.clkpin ∧ t.gain ≠ s.gain ∧ t.chan ≠ s.chan) ∧
    ∃ s t : State, step s = .next t ∧ s.ports.rst = false ∧ s.ph = .idle ∧ t.gain ≠ s.gain :=
  ⟨⟨inPhase .iWr (level true) { State.reset with cmd := 0x1111B20E#32 }, _, rfl, rfl, by decide, by decide, by decide⟩,
    ⟨blockA.withFetchWord 32 0x20000040, _, rfl, rfl, rfl, by decide⟩⟩

theorem witness_LifeAndPowerWriters :
    (∃ s t : State, step s = .next t ∧ s.ports.rst = false ∧ t.life ≠ s.life) ∧
    (∃ s t : State, step s = .next t ∧ s.ports.rst = false ∧ s.ph = .dWr ∧ t.pwr ≠ s.pwr) ∧
    ∃ s t : State, step s = .next t ∧ s.ports.rst = false ∧ s.ph = .uWr ∧ t.pwr ≠ s.pwr :=
  ⟨⟨inPhase .iWr (level true) { State.reset with cmd := 0x1111B20E#32 }, _, rfl, rfl, by decide⟩,
    ⟨inPhase .dWr (level true) blockA, _, rfl, rfl, rfl, by decide⟩,
    ⟨inPhase .uWr (level true) blockDown, _, rfl, rfl, rfl, by decide⟩⟩

theorem witness_DataPathWriters :
    (∃ s t : State, step s = .next t ∧ s.ports.rst = false ∧ t.frame ≠ s.frame ∧ t.sample ≠ s.sample) ∧
    (∃ s t : State, step s = .next t ∧ s.ports.rst = false ∧ t.bytes ≠ s.bytes ∧ t.acc ≠ s.acc) ∧
    ∃ s t : State, step s = .next t ∧ s.ports.rst = false ∧ s.ph = .idle ∧ t.pcnt ≠ s.pcnt :=
  ⟨⟨inPhase .smp (level true) { blockA with cmd := 0x70000000#32, pcnt := 24#5, bytes := ⟨0x12#8, 0x34#8, 0x56#8⟩ }, _,
      rfl, rfl, by decide, by decide⟩,
    ⟨inPhase .smp (level true) { blockA with pcnt := 7#5, acc := 0x52#8 }, _, rfl, rfl, by decide, by decide⟩,
    ⟨State.withFetchWord { blockA with pcnt := 25#5 } 32 0x70000000, _, rfl, rfl, rfl, by decide⟩⟩

theorem witness_ClockMirrorsTheLastWrite :
    ∃ s t : State, s.sck = lastWrittenLevel s.trace ∧ step s = .next t ∧ t.sck ≠ s.sck :=
  ⟨inPhase .ckHi (level true) blockA, _, by decide, rfl, by decide⟩

/-- `blockA` has the invariant, in the phase of a poll as well. -/
theorem witness_inv_blockA : Inv blockA := by
  constructor <;> simp [blockA, State.reset, initialising, readingFrame, inSlot, noFailure, validPair, idlePulses]

theorem witness_inv_polling : Inv (inPhase .poll (level false) { blockA with cmd := 0x70000000#32 }) := by
  constructor <;>
    simp [inPhase, blockA, State.reset, initialising, readingFrame, inSlot, noFailure, validPair, idlePulses, encode,
      placeAt]

theorem witness_ConfiguredPinAccess :
    ∃ s t : State, Inv s ∧ s.life = .configured ∧ s.ports.rst = false ∧ step s = .next t ∧ t.trace ≠ s.trace :=
  ⟨_, _, witness_inv_polling, rfl, rfl, rfl, by decide⟩

theorem witness_NoFailureWithoutIoFail :
    ∃ s t : State, s.ports.ioFail = false ∧ step s = .next t ∧ noFailure s.trace = true ∧ t.responses ≠ s.responses :=
  ⟨inPhase .qRd (level true) blockA, _, rfl, rfl, by decide, by decide⟩

theorem witness_LastResponseIsHeld :
    ∃ s t : State, (s.rspValid = true → s.responses.getLast? = some ⟨s.rspStatus, s.rspData⟩) ∧ step s = .next t ∧
      t.rspValid = true :=
  ⟨inPhase .qRd (level true) blockA, _, by decide, rfl, rfl⟩

theorem witness_ChannelStaysUntilReset :
    ∃ s t : State, Inv s ∧ s.life = .configured ∧ s.ports.rst = false ∧ step s = .next t :=
  ⟨_, _, witness_inv_polling, rfl, rfl, rfl⟩

theorem witness_StepKeepsTheInvariant : ∃ s t : State, Inv s ∧ step s = .next t :=
  ⟨_, _, witness_inv_polling, rfl⟩

theorem witness_NoStepStops : ∃ s : State, Inv s := ⟨_, witness_inv_polling⟩

/-- Two reset-like states that differ in every register reset leaves open. -/
theorem witness_OpenResetValuesNeverShow :
    ∃ s t : State, ResetLike s ∧ ResetLike t ∧ s.inputs = t.inputs ∧ s.drawn = t.drawn ∧ s ≠ t :=
  ⟨State.reset,
    { State.reset with
      clkpin := 1#8, datpin := 2#8, gain := 3#8, chan := .b, bitord := .lsbFirst, byteord := .lsbFirst, cmd := 4#32
      pcnt := 5#5, acc := 6#8, bytes := ⟨7#8, 8#8, 9#8⟩, frame := 10#24, sample := 11#32, rspStatus := 12#4
      rspData := 13#32 },
    ⟨rfl, rfl, rfl, rfl, rfl, rfl, rfl⟩, ⟨rfl, rfl, rfl, rfl, rfl, rfl, rfl⟩, rfl, rfl, by decide⟩

end Sys2Proof.Tests
end

