-- ==== Sys2Proof/Proofs/PulseTable.lean ====
section
/-! The pulse table of R18 and R93: `idle`, and what `valid` and `total` say through it. -/

namespace Sys2Proof.Proofs

open Sys2Proof.Machine

/-- Channel A has the rows of gain 128 and of gain 64 (R18). -/
theorem idlePulses_a_eq_some {g : Gain} {n : Nat} :
    idlePulses .a g = some n ↔ (g = 128#8 ∧ n = 1) ∨ (g = 64#8 ∧ n = 3) := by
  by_cases h128 : g = 128#8 <;> simp [idlePulses, h128, eq_comm]

/-- Channel B has the one row of gain 32 (R18). -/
theorem idlePulses_b_eq_some {g : Gain} {n : Nat} : idlePulses .b g = some n ↔ g = 32#8 ∧ n = 2 := by
  simp [idlePulses, eq_comm]

theorem idlePulses_eq_some {c : Channel} {g : Gain} {n : Nat} :
    idlePulses c g = some n ↔
      (c = .a ∧ g = 128#8 ∧ n = 1) ∨ (c = .b ∧ g = 32#8 ∧ n = 2) ∨ (c = .a ∧ g = 64#8 ∧ n = 3) := by
  cases c with
  | a => simp [idlePulses_a_eq_some]
  | b => simp [idlePulses_b_eq_some]

/-- R18: the pair is valid exactly when `idle` is defined for it. -/
theorem validPair_iff_idlePulses_defined {c : Channel} {g : Gain} :
    validPair c g = true ↔ ∃ n, idlePulses c g = some n :=
  Option.isSome_iff_exists

/-- R18: `total` is `idle` after the 24 data slots, and is defined where `idle` is. -/
theorem totalPulses_eq_some {c : Channel} {g : Gain} {n : Nat} :
    totalPulses c g = some n ↔ ∃ m, idlePulses c g = some m ∧ 24 + m = n :=
  Option.map_eq_some_iff

/-- Settles O17: each row of `idle` gives its row of `total`, 24 pulses more. -/
theorem pulseTable : Obligations.PulseTable := by
  unfold Obligations.PulseTable
  refine ⟨fun c g n => idlePulses_eq_some, fun c g => validPair_iff_idlePulses_defined, fun c g n => ?_⟩
  rw [totalPulses_eq_some]
  constructor
  · rintro ⟨m, hm, rfl⟩
    obtain ⟨hc, hg, rfl⟩ | ⟨hc, hg, rfl⟩ | ⟨hc, hg, rfl⟩ := idlePulses_eq_some.mp hm <;> simp [hc, hg]
  · rintro (⟨rfl, rfl, rfl⟩ | ⟨rfl, rfl, rfl⟩ | ⟨rfl, rfl, rfl⟩)
    · exact ⟨1, rfl, rfl⟩
    · exact ⟨2, rfl, rfl⟩
    · exact ⟨3, rfl, rfl⟩

end Sys2Proof.Proofs
end

