-- ==== Sys2Proof/Proofs/StepInversion.lean ====
section
/-! What an accepted word and a phase's step can lead to, each as one inductive list of cases, and the inversion of
`step` through them: every statement about single steps is a case analysis over these lists. -/

namespace Sys2Proof.Proofs

open Sys2Proof.Machine Sys2Proof.Safety

/-- What an idle block `s` becomes when it accepts the word `w` (R212, R238). -/
inductive Accepted (w : Word) (s : State) : State → Prop
  /-- A check refuses the word. No check answers ERR_IO. -/
  | refused (e : CmdError) (hio : e ≠ .io) : Accepted w s (s.beginCommand.raise e)
  /-- A command that only answers. -/
  | answered (d : Word) (hlife : s.life = .configured) : Accepted w s (s.beginCommand.respond okCode d)
  | setgain (g : Gain) (hw : decode w = .command (.setgain g)) (hlife : s.life = .configured)
      (hpair : validPair s.chan g = true) :
      Accepted w s ({ s.beginCommand with gain := g }.respond okCode 0#32)
  | setchan (c : Channel) (hw : decode w = .command (.setchan c)) (hlife : s.life = .configured)
      (hpair : validPair c s.gain = true) :
      Accepted w s ({ s.beginCommand with chan := c }.respond okCode 0#32)
  | init (p q : Pin) (g : Gain) (c : Channel) (bo yo : Order) (hw : decode w = .command (.init p q g c bo yo))
      (hlife : s.life = .unconfigured) (hpair : validPair c g = true) :
      Accepted w s ((s.beginCommand.latch (.init p q g c bo yo)).enter .iOut)
  | rdy (hw : decode w = .command .rdy) (hlife : s.life = .configured) :
      Accepted w s ((s.beginCommand.latch .rdy).enter .qRd)
  | rdraw (hw : decode w = .command .rdraw) (hlife : s.life = .configured) (hpwr : s.pwr = .active) :
      Accepted w s (s.beginCommand.latch .rdraw).startFrame
  | pwrdn (hw : decode w = .command .pwrdn) (hlife : s.life = .configured) (hpwr : s.pwr = .active) :
      Accepted w s ((s.beginCommand.latch .pwrdn).enter .dWr)
  | pwrup (hw : decode w = .command .pwrup) (hlife : s.life = .configured) (hpwr : s.pwr = .poweredDown) :
      Accepted w s ((s.beginCommand.latch .pwrup).enter .uWr)

/-- What the step of a busy block's phase leads to under the port sample `io` (R213 to R225). -/
inductive PhaseDone (io : PortSample) (s : State) : State → Prop
  /-- The phase's pin event fails. -/
  | failed (e : PinEvent) (hfail : io.ioFail = true) (he : phaseEventFailed s = [e]) :
      PhaseDone io s ((s.log e).raise .io)
  | iOut (hph : s.ph = .iOut) (hok : io.ioFail = false) :
      PhaseDone io s ((s.log (.cfgOut (clockPinField s.cmd))).enter .iIn)
  | iIn (hph : s.ph = .iIn) (hok : io.ioFail = false) :
      PhaseDone io s ((s.log (.cfgIn (dataPinField s.cmd))).enter .iWr)
  | iWr (hph : s.ph = .iWr) (hok : io.ioFail = false) :
      PhaseDone io s
        ((State.commitConfig { s.log (.write (clockPinField s.cmd) false) with sck := false }).respond okCode 0#32)
  | qRd (hph : s.ph = .qRd) (hok : io.ioFail = false) :
      PhaseDone io s
        ((s.log (.read s.datpin io.dout)).respond okCode (if dataReady io.dout then 1#32 else 0#32))
  | dWr (hph : s.ph = .dWr) (hok : io.ioFail = false) :
      PhaseDone io s ({ s.log (.write s.clkpin true) with sck := true, pwr := .poweredDown }.respond okCode 0#32)
  | uWr (hph : s.ph = .uWr) (hok : io.ioFail = false) :
      PhaseDone io s { s.log (.write s.clkpin false) with sck := false, pwr := .active }.startFrame
  | poll (hph : s.ph = .poll) (hok : io.ioFail = false) :
      PhaseDone io s ((s.log (.read s.datpin io.dout)).enter (if dataReady io.dout then .ckHi else .poll))
  | ckHi (hph : s.ph = .ckHi) (hok : io.ioFail = false) :
      PhaseDone io s (State.enter .ckLo { s.log (.write s.clkpin true) with sck := true })
  | ckLo (hph : s.ph = .ckLo) (hok : io.ioFail = false) :
      PhaseDone io s (State.enter .smp { s.log (.write s.clkpin false) with sck := false })
  /-- A bit slot that is not the last. -/
  | nextSlot (total : Nat) (hph : s.ph = .smp) (hok : io.ioFail = false)
      (htotal : totalPulses s.chan s.gain = some total) (hcount : (s.pcnt + 1#5).toNat ≠ total) :
      PhaseDone io s (((s.log (.read s.datpin io.dout)).assembleBit io.dout).countPulse.enter .ckHi)
  /-- The last bit slot of RDRAW; `u` is the block once the bit is assembled and counted. -/
  | rdrawEnd (total : Nat) (u : State) (hph : s.ph = .smp) (hok : io.ioFail = false)
      (htotal : totalPulses s.chan s.gain = some total) (hcount : (s.pcnt + 1#5).toNat = total)
      (hcmd : s.cmd = encode .rdraw) (hu : u = ((s.log (.read s.datpin io.dout)).assembleBit io.dout).countPulse) :
      PhaseDone io s ({ u with
        frame := pack u.bytes u.byteord, sample := sextFrame (pack u.bytes u.byteord) }.respond okCode
          (sextFrame (pack u.bytes u.byteord)))
  /-- The last bit slot of PWRUP's flush. -/
  | pwrupEnd (total : Nat) (u : State) (hph : s.ph = .smp) (hok : io.ioFail = false)
      (htotal : totalPulses s.chan s.gain = some total) (hcount : (s.pcnt + 1#5).toNat = total)
      (hcmd : s.cmd = encode .pwrup) (hu : u = ((s.log (.read s.datpin io.dout)).assembleBit io.dout).countPulse) :
      PhaseDone io s ({ u with frame := pack u.bytes u.byteord }.respond okCode 0#32)

theorem lifecycleCheck_ne_io (want : Life) (s : State) : lifecycleCheck want s ≠ some .io := by
  unfold lifecycleCheck; split <;> simp

theorem powerGate_ne_io (s : State) : powerGate s ≠ some .io := by
  unfold powerGate; split <;> simp

theorem gainCheck_ne_io (g : Gain) : gainCheck g ≠ some .io := by
  unfold gainCheck; split <;> simp

theorem pairCheck_ne_io (c : Channel) (g : Gain) : pairCheck c g ≠ some .io := by
  unfold pairCheck; split <;> simp

theorem or_ne_io {a b : Option CmdError} (ha : a ≠ some .io) (hb : b ≠ some .io) : a.or b ≠ some .io := by
  cases a with
  | none => simpa using hb
  | some e => simpa using ha

/-- Acceptance of a command is refused at its first failing check, or does the command's start (R212). -/
theorem accepted_checked {w : Word} {s : State} {check : Option CmdError} {start : State → State}
    (hio : check ≠ some .io) (hstart : check = none → Accepted w s (start s.beginCommand)) :
    Accepted w s (s.checked check start) := by
  cases check with
  | none => exact hstart rfl
  | some e => exact .refused e (by simpa using hio)

/-- Acceptance of a word leads to one of the cases of `Accepted` (R212). -/
theorem accepted_of_accept {w : Word} {s t : State} (h : accept w s = .next t) : Accepted w s t := by
  have hlife := fun want => lifecycleCheck_ne_io want s
  unfold accept at h
  split at h
  next i hw =>
    cases i with
    | init p q g c bo yo =>
      cases h
      refine accepted_checked (or_ne_io (hlife _) (or_ne_io (gainCheck_ne_io g) (pairCheck_ne_io c g))) fun hc => ?_
      obtain ⟨hl, -, hp⟩ : _ ∧ _ ∧ _ := by simpa only [Option.or_eq_none_iff] using hc
      exact .init p q g c bo yo hw (lifecycleCheck_eq_none.mp hl) (pairCheck_eq_none.mp hp)
    | setgain g =>
      cases h
      refine accepted_checked (or_ne_io (hlife _) (or_ne_io (gainCheck_ne_io g) (pairCheck_ne_io _ g))) fun hc => ?_
      obtain ⟨hl, -, hp⟩ : _ ∧ _ ∧ _ := by simpa only [Option.or_eq_none_iff] using hc
      exact .setgain g hw (lifecycleCheck_eq_none.mp hl) (pairCheck_eq_none.mp hp)
    | getgain =>
      cases h
      exact accepted_checked (hlife _) fun hl => .answered _ (lifecycleCheck_eq_none.mp hl)
    | setchan c =>
      cases h
      refine accepted_checked (or_ne_io (hlife _) (pairCheck_ne_io c _)) fun hc => ?_
      obtain ⟨hl, hp⟩ := Option.or_eq_none_iff.mp hc
      exact .setchan c hw (lifecycleCheck_eq_none.mp hl) (pairCheck_eq_none.mp hp)
    | getchan =>
      cases h
      exact accepted_checked (hlife _) fun hl => .answered _ (lifecycleCheck_eq_none.mp hl)
    | rdy =>
      cases h
      exact accepted_checked (hlife _) fun hl => .rdy hw (lifecycleCheck_eq_none.mp hl)
    | rdraw =>
      cases h
      refine accepted_checked (or_ne_io (hlife _) (powerGate_ne_io s)) fun hc => ?_
      obtain ⟨hl, hp⟩ := Option.or_eq_none_iff.mp hc
      exact .rdraw hw (lifecycleCheck_eq_none.mp hl) (powerGate_eq_none.mp hp)
    | pwrdn =>
      cases h
      refine accepted_checked (hlife _) fun hl => ?_
      cases hp : s.pwr with
      | active => simpa [hp] using Accepted.pwrdn hw (lifecycleCheck_eq_none.mp hl) hp
      | poweredDown => simpa [hp] using Accepted.answered 0#32 (lifecycleCheck_eq_none.mp hl)
    | pwrup =>
      cases h
      refine accepted_checked (hlife _) fun hl => ?_
      cases hp : s.pwr with
      | active => simpa [hp] using Accepted.answered 0#32 (lifecycleCheck_eq_none.mp hl)
      | poweredDown => simpa [hp] using Accepted.pwrup hw (lifecycleCheck_eq_none.mp hl) hp
  next =>
    cases h
    exact .refused .illegal (by decide)

/-- A pin event either fails and ends the command, or leads on (R66, R225). -/
theorem phaseDone_of_event {io : PortSample} {s t : State} {e : PinEvent} {k : Result}
    (he : phaseEventFailed s = [e]) (hk : io.ioFail = false → k = .next t → PhaseDone io s t)
    (h : (if io.ioFail then .next ((s.log e).raise .io) else k) = .next t) : PhaseDone io s t := by
  cases hf : io.ioFail with
  | false => exact hk hf (by simpa [hf] using h)
  | true =>
    obtain rfl : (s.log e).raise .io = t := by simpa [hf] using h
    exact .failed e hf he

/-- The same for a phase whose completed event leads to one state `u`. -/
theorem phaseDone_of_event_next {io : PortSample} {s t u : State} {e : PinEvent}
    (he : phaseEventFailed s = [e]) (hu : io.ioFail = false → PhaseDone io s u)
    (h : (if io.ioFail then .next ((s.log e).raise .io) else .next u) = (.next t : Result)) : PhaseDone io s t := by
  refine phaseDone_of_event he (fun hok hk => ?_) h
  cases hk
  exact hu hok

/-- The SMP step of a bit that is read: the slot is not the last, or it ends the frame read of RDRAW or of PWRUP
(R220, R221). -/
theorem phaseDone_of_nextSlot {io : PortSample} {s t : State} (hph : s.ph = .smp) (hok : io.ioFail = false)
    (h : nextSlot ((s.log (.read s.datpin io.dout)).assembleBit io.dout).countPulse = .next t) : PhaseDone io s t := by
  cases htotal : totalPulses s.chan s.gain with
  | none => simp [Machine.nextSlot, htotal] at h
  | some total =>
    by_cases hcount : (s.pcnt + 1#5).toNat = total
    · rw [nextSlot_end (by simpa using htotal) (by simpa using hcount)] at h
      by_cases hraw : s.cmd = encode .rdraw
      · rw [endFrame_rdraw (by simpa using hraw)] at h
        cases h
        exact .rdrawEnd total _ hph hok htotal hcount hraw rfl
      · by_cases hup : s.cmd = encode .pwrup
        · rw [endFrame_pwrup (by simpa using hup)] at h
          cases h
          exact .pwrupEnd total _ hph hok htotal hcount hup rfl
        · simp [endFrame, hraw, hup] at h
    · rw [nextSlot_continue (by simpa using htotal) (by simpa using hcount)] at h
      cases h
      exact .nextSlot total hph hok htotal hcount

/-- The step of a busy block's phase leads to one of the cases of `PhaseDone`. -/
theorem phaseDone_of_phaseStep {io : PortSample} {s t : State} (hbusy : s.ph ≠ .idle) (h : phaseStep io s = .next t) :
    PhaseDone io s t := by
  cases hph : s.ph with
  | idle => exact absurd hph hbusy
  | iOut =>
    exact phaseDone_of_event_next (by simp [phaseEventFailed, hph]) (.iOut hph) (phaseStep_iOut io hph ▸ h)
  | iIn =>
    exact phaseDone_of_event_next (by simp [phaseEventFailed, hph]) (.iIn hph) (phaseStep_iIn io hph ▸ h)
  | iWr =>
    exact phaseDone_of_event_next (by simp [phaseEventFailed, hph]) (.iWr hph) (phaseStep_iWr io hph ▸ h)
  | qRd =>
    exact phaseDone_of_event_next (by simp [phaseEventFailed, hph]) (.qRd hph) (phaseStep_qRd io hph ▸ h)
  | dWr =>
    exact phaseDone_of_event_next (by simp [phaseEventFailed, hph]) (.dWr hph) (phaseStep_dWr io hph ▸ h)
  | uWr =>
    exact phaseDone_of_event_next (by simp [phaseEventFailed, hph]) (.uWr hph) (phaseStep_uWr io hph ▸ h)
  | poll =>
    exact phaseDone_of_event_next (by simp [phaseEventFailed, hph]) (.poll hph) (phaseStep_poll io hph ▸ h)
  | ckHi =>
    exact phaseDone_of_event_next (by simp [phaseEventFailed, hph]) (.ckHi hph) (phaseStep_ckHi io hph ▸ h)
  | ckLo =>
    exact phaseDone_of_event_next (by simp [phaseEventFailed, hph]) (.ckLo hph) (phaseStep_ckLo io hph ▸ h)
  | smp =>
    exact phaseDone_of_event (by simp [phaseEventFailed, hph]) (phaseDone_of_nextSlot hph) (phaseStep_smp io hph ▸ h)

/-- What a step that is no reset leads to, its port sample used up: the block waits, accepts a word, or does its
phase's step (R210). -/
inductive Stepped (s : State) : State → Prop
  | waited : Stepped s s.advance
  | accepted {t : State} (hidle : s.ph = .idle) (h : Accepted s.ports.cmdWord s.advance t) : Stepped s t
  | phase {t : State} (hbusy : s.ph ≠ .idle) (h : PhaseDone s.ports s.advance t) : Stepped s t

/-- The inversion of `step` (R210, R260). -/
theorem step_inversion {s t : State} (h : step s = .next t) :
    s.ports.rst = true ∧ t = s.advance.resetBlock ∨ s.ports.rst = false ∧ Stepped s t := by
  obtain ⟨hr, he⟩ | ⟨hr, -, -, he⟩ | ⟨hr, hi, -, he⟩ | ⟨hr, hb, he⟩ := step_cases s <;> rw [he] at h
  · cases h
    exact .inl ⟨hr, rfl⟩
  · cases h
    exact .inr ⟨hr, .waited⟩
  · exact .inr ⟨hr, .accepted hi (accepted_of_accept h)⟩
  · exact .inr ⟨hr, .phase hb (phaseDone_of_phaseStep (by simpa using hb) h)⟩

theorem stepped_of_step {s t : State} (h : step s = .next t) (hr : s.ports.rst = false) : Stepped s t := by
  obtain ⟨ht, -⟩ | ⟨-, hs⟩ := step_inversion h
  · simp [ht] at hr
  · exact hs

/-- A property that the reset and the use of a port sample keep, and that acceptance and every phase's step keep, is
kept by every step. -/
theorem step_keeps {P : State → Prop} (hreset : ∀ s, P s → P s.resetBlock) (hadvance : ∀ s, P s → P s.advance)
    (haccept : ∀ w s t, s.ph = .idle → P s → Accepted w s t → P t)
    (hphase : ∀ io s t, s.ph ≠ .idle → P s → PhaseDone io s t → P t) {s t : State} (hs : P s)
    (h : step s = .next t) : P t := by
  obtain ⟨-, rfl⟩ | ⟨-, hst⟩ := step_inversion h
  · exact hreset _ (hadvance s hs)
  · cases hst with
    | waited => exact hadvance s hs
    | accepted hi ha => exact haccept _ _ _ (by simpa using hi) (hadvance s hs) ha
    | phase hb hp => exact hphase _ _ _ (by simpa using hb) (hadvance s hs) hp

end Sys2Proof.Proofs
end

