-- ==== Sys2Proof/Proofs/Writers.lean ====
section
/-! Who writes what between resets (R21 to R28, R35, R36): for each register, the kinds of step that may change it. -/

namespace Sys2Proof.Proofs

open Sys2Proof.Machine Sys2Proof.Safety

theorem stepped_pins_orders_eq {s t : State} (h : Stepped s t) (hph : s.ph ≠ .iWr) :
    t.clkpin = s.clkpin ∧ t.datpin = s.datpin ∧ t.bitord = s.bitord ∧ t.byteord = s.byteord := by
  cases h with
  | waited => simp
  | accepted _ ha => cases ha <;> simp
  | phase _ hp =>
    cases hp with
    | iWr hiw => exact absurd hiw (by simpa using hph)
    | rdrawEnd _ _ _ _ _ _ _ hu | pwrupEnd _ _ _ _ _ _ _ hu => simp [hu]
    | _ => simp

theorem stepped_gain {s t : State} (h : Stepped s t) :
    t.gain = s.gain ∨ s.ph = .iWr ∨ s.ph = .idle ∧ decode s.ports.cmdWord = .command (.setgain t.gain) := by
  cases h with
  | waited => simp
  | accepted hi ha =>
    cases ha with
    | setgain g hw => exact .inr (.inr ⟨hi, hw⟩)
    | _ => simp
  | phase _ hp =>
    cases hp with
    | iWr hiw => exact .inr (.inl (by simpa using hiw))
    | rdrawEnd _ _ _ _ _ _ _ hu | pwrupEnd _ _ _ _ _ _ _ hu => simp [hu]
    | _ => simp

theorem stepped_chan {s t : State} (h : Stepped s t) :
    t.chan = s.chan ∨ s.ph = .iWr ∨ s.ph = .idle ∧ decode s.ports.cmdWord = .command (.setchan t.chan) := by
  cases h with
  | waited => simp
  | accepted hi ha =>
    cases ha with
    | setchan c hw => exact .inr (.inr ⟨hi, hw⟩)
    | _ => simp
  | phase _ hp =>
    cases hp with
    | iWr hiw => exact .inr (.inl (by simpa using hiw))
    | rdrawEnd _ _ _ _ _ _ _ hu | pwrupEnd _ _ _ _ _ _ _ hu => simp [hu]
    | _ => simp

/-- Settles O41: the pins and orders change in I_WR only, GAIN and CHAN also by their setters' acceptance. -/
theorem configurationWriters : Obligations.ConfigurationWriters := by
  unfold Obligations.ConfigurationWriters
  intro s t h hr
  have hst := stepped_of_step h hr
  refine ⟨fun hne => ?_, (stepped_gain hst).resolve_left, (stepped_chan hst).resolve_left⟩
  by_contra hph
  obtain ⟨hclk, hdat, hbit, hbyte⟩ := stepped_pins_orders_eq hst hph
  simp [hclk, hdat, hbit, hbyte] at hne

/-- LIFE is written by INIT's commit only (R21). -/
theorem stepped_life {s t : State} (h : Stepped s t) : t.life = s.life ∨ s.ph = .iWr ∧ t.life = .configured := by
  cases h with
  | waited => simp
  | accepted _ ha => cases ha <;> simp
  | phase _ hp =>
    cases hp with
    | iWr hiw => exact .inr ⟨by simpa using hiw, rfl⟩
    | rdrawEnd _ _ _ _ _ _ _ hu | pwrupEnd _ _ _ _ _ _ _ hu => simp [hu]
    | _ => simp

/-- PWR is written by PWRDN's write, PWRUP's write and INIT's commit only (R28). -/
theorem stepped_pwr {s t : State} (h : Stepped s t) :
    t.pwr = s.pwr ∨ s.ph = .dWr ∧ t.pwr = .poweredDown ∨ s.ph = .uWr ∧ t.pwr = .active ∨
      s.ph = .iWr ∧ t.pwr = .active := by
  cases h with
  | waited => simp
  | accepted _ ha => cases ha <;> simp
  | phase _ hp =>
    cases hp with
    | dWr hph => exact .inr (.inl ⟨by simpa using hph, rfl⟩)
    | uWr hph => exact .inr (.inr (.inl ⟨by simpa using hph, rfl⟩))
    | iWr hph => exact .inr (.inr (.inr ⟨by simpa using hph, rfl⟩))
    | rdrawEnd _ _ _ _ _ _ _ hu | pwrupEnd _ _ _ _ _ _ _ hu => simp [hu]
    | _ => simp

/-- Settles O42. -/
theorem lifeAndPowerWriters : Obligations.LifeAndPowerWriters := by
  unfold Obligations.LifeAndPowerWriters
  intro s t h hr
  have hst := stepped_of_step h hr
  exact ⟨(stepped_life hst).resolve_left, (stepped_pwr hst).resolve_left⟩

theorem stepped_frame_bytes_eq {s t : State} (h : Stepped s t) (hph : s.ph ≠ .smp) :
    t.frame = s.frame ∧ t.bytes = s.bytes := by
  cases h with
  | waited => simp
  | accepted _ ha => cases ha <;> simp
  | phase _ hp =>
    cases hp with
    | nextSlot _ hsmp | rdrawEnd _ _ hsmp | pwrupEnd _ _ hsmp => exact absurd hsmp (by simpa using hph)
    | _ => simp

/-- SAMPLE is written where RDRAW's frame read ends, and is then the response data (R36, R221). -/
theorem stepped_sample {s t : State} (h : Stepped s t) :
    t.sample = s.sample ∨ s.ph = .smp ∧ s.cmd = encode .rdraw ∧ t.rspData = t.sample := by
  cases h with
  | waited => simp
  | accepted _ ha => cases ha <;> simp
  | phase _ hp =>
    cases hp with
    | rdrawEnd _ _ hsmp _ _ _ hcmd => exact .inr ⟨by simpa using hsmp, by simpa using hcmd, rfl⟩
    | pwrupEnd _ _ _ _ _ _ _ hu => simp [hu]
    | _ => simp

/-- PCNT and ACC are written in SMP and where a frame read starts (R216, R220). -/
theorem stepped_pcnt_acc {s t : State} (h : Stepped s t) :
    t.pcnt = s.pcnt ∧ t.acc = s.acc ∨
      s.ph = .smp ∨ s.ph = .uWr ∨ s.ph = .idle ∧ decode s.ports.cmdWord = .command .rdraw := by
  cases h with
  | waited => simp
  | accepted hi ha =>
    cases ha with
    | rdraw hw => exact .inr (.inr (.inr ⟨hi, hw⟩))
    | _ => simp
  | phase _ hp =>
    cases hp with
    | nextSlot _ hsmp | rdrawEnd _ _ hsmp | pwrupEnd _ _ hsmp => exact .inr (.inl (by simpa using hsmp))
    | uWr hph => exact .inr (.inr (.inl (by simpa using hph)))
    | _ => simp

/-- Settles O43. -/
theorem dataPathWriters : Obligations.DataPathWriters := by
  unfold Obligations.DataPathWriters
  intro s t h hr
  have hst := stepped_of_step h hr
  refine ⟨fun hne => ?_, (stepped_sample hst).resolve_left, fun hne => (stepped_pcnt_acc hst).resolve_left ?_⟩
  · by_contra hph
    obtain ⟨hframe, hbytes⟩ := stepped_frame_bytes_eq hst hph
    simp [hframe, hbytes] at hne
  · rintro ⟨hpcnt, hacc⟩
    simp [hpcnt, hacc] at hne

end Sys2Proof.Proofs
end

