-- ==== Sys2Proof/Proofs/TraceAndResponses.lean ====
section
/-! What every step keeps of the pin trace and of the responses: SCK mirrors the last write (R29), nothing fails without
`io_fail` (R48, R66), the response registers hold the last response (R37); and what a busy block's step reads of its
port sample (R40). -/

namespace Sys2Proof.Proofs

open Sys2Proof.Machine Sys2Proof.Safety

@[simp] theorem lastWrittenLevel_append (l : List PinEvent) (e : PinEvent) :
    lastWrittenLevel (l ++ [e]) = (writtenLevel e).getD (lastWrittenLevel l) := by
  simp [lastWrittenLevel]

@[simp] theorem noFailure_append (l : List PinEvent) (e : PinEvent) :
    noFailure (l ++ [e]) = (noFailure l && !isFailed e) := by
  simp [noFailure]

/-- The event of a phase that fails is a failed one (R66). -/
theorem isFailed_of_phaseEventFailed {s : State} {e : PinEvent} (h : phaseEventFailed s = [e]) :
    isFailed e = true := by
  cases hph : s.ph <;> simp only [phaseEventFailed, hph] at h <;> cases h <;> rfl

/-- A failed event writes no level (R66). -/
theorem writtenLevel_of_isFailed {e : PinEvent} (h : isFailed e = true) : writtenLevel e = none := by
  cases e <;> simp_all [isFailed, writtenLevel]

/-- Settles O44: of the events a step logs, the completed writes are those that set SCK. -/
theorem clockMirrorsTheLastWrite : Obligations.ClockMirrorsTheLastWrite := by
  unfold Obligations.ClockMirrorsTheLastWrite
  intro s t
  refine step_keeps (P := fun s => s.sck = lastWrittenLevel s.trace) (fun s _ => rfl) (fun s hs => by simpa using hs)
    (fun w s t _ hs ha => ?_) (fun io s t _ hs hp => ?_)
  · cases ha <;> simpa using hs
  · cases hp with
    | failed e _ he => simpa [writtenLevel_of_isFailed (isFailed_of_phaseEventFailed he)] using hs
    | rdrawEnd | pwrupEnd => simp_all [writtenLevel]
    | _ => simp [writtenLevel, hs]

theorem accepted_trace {w : Word} {s t : State} (h : Accepted w s t) : t.trace = s.trace := by
  cases h <;> simp

/-- A phase's pin event that does not fail is logged as completed (R66). -/
theorem phaseDone_trace_of_ok {io : PortSample} {s t : State} (h : PhaseDone io s t) (hok : io.ioFail = false) :
    ∃ e, t.trace = s.trace ++ [e] ∧ isFailed e = false := by
  cases h with
  | failed e hfail => simp [hok] at hfail
  | rdrawEnd | pwrupEnd => simp_all [isFailed]
  | _ => simp [isFailed]

/-- A step without `io_fail` logs no failed event (R48). -/
theorem stepped_noFailure {s t : State} (h : Stepped s t) (hok : s.ports.ioFail = false)
    (hs : noFailure s.trace = true) : noFailure t.trace = true := by
  cases h with
  | waited => simpa using hs
  | accepted _ ha => simpa [accepted_trace ha] using hs
  | phase _ hp =>
    obtain ⟨e, htrace, he⟩ := phaseDone_trace_of_ok hp hok
    simpa [htrace, he] using hs

/-- A step without `io_fail` answers nothing, or with another status than ERR_IO (R234). -/
theorem stepped_responses_of_ok {s t : State} (h : Stepped s t) (hok : s.ports.ioFail = false) :
    t.responses = s.responses ∨ ∃ r, t.responses = s.responses ++ [r] ∧ r.status ≠ 2#4 := by
  cases h with
  | waited => simp
  | accepted _ ha =>
    cases ha with
    | refused e hio => right; cases e <;> simp_all [CmdError.code]
    | _ => simp [okCode]
  | phase _ hp =>
    cases hp with
    | failed e hfail => simp [hok] at hfail
    | rdrawEnd | pwrupEnd => simp_all [okCode]
    | _ => simp [okCode]

/-- Settles O46. A reset empties the trace and the responses. -/
theorem noFailureWithoutIoFail : Obligations.NoFailureWithoutIoFail := by
  unfold Obligations.NoFailureWithoutIoFail
  intro s t hok h
  obtain ⟨-, rfl⟩ | ⟨-, hst⟩ := step_inversion h
  · exact ⟨fun _ => rfl, .inr (.inl rfl)⟩
  · exact ⟨stepped_noFailure hst hok, (stepped_responses_of_ok hst hok).imp_right .inr⟩

/-- RSP_STATUS and RSP_DATA are the last of the run's responses, while they count (R37). -/
def HoldsLastResponse (s : State) : Prop :=
  s.rspValid = true → s.responses.getLast? = some ⟨s.rspStatus, s.rspData⟩

theorem holdsLastResponse_respond (status : StatusCode) (d : Word) (s : State) :
    HoldsLastResponse (s.respond status d) := by
  simp [HoldsLastResponse]

/-- Settles O47: a step answers, or takes RSP_VALID away, or leaves both the registers and the list. -/
theorem lastResponseIsHeld : Obligations.LastResponseIsHeld := by
  unfold Obligations.LastResponseIsHeld
  intro s t
  refine step_keeps (P := HoldsLastResponse) (fun s _ hv => by cases hv)
    (fun s hs => by simpa [HoldsLastResponse] using hs) (fun w s t _ hs ha => ?_) (fun io s t _ hs hp => ?_)
  · cases ha with
    | refused | answered | setgain | setchan => exact holdsLastResponse_respond _ _ _
    | _ => simp [HoldsLastResponse]
  · cases hp with
    | failed | iWr | qRd | dWr | rdrawEnd | pwrupEnd => exact holdsLastResponse_respond _ _ _
    | _ => simpa [HoldsLastResponse] using hs

/-- The step of a phase reads `dout` and `io_fail` of its port sample, nothing else (R48). -/
theorem phaseStep_congr {io io' : PortSample} (hdout : io.dout = io'.dout) (hfail : io.ioFail = io'.ioFail)
    (s : State) : phaseStep io s = phaseStep io' s := by
  cases hph : s.ph with
  | idle => simp only [phaseStep, hph]
  | iOut => rw [phaseStep_iOut io hph, phaseStep_iOut io' hph, hfail]
  | iIn => rw [phaseStep_iIn io hph, phaseStep_iIn io' hph, hfail]
  | iWr => rw [phaseStep_iWr io hph, phaseStep_iWr io' hph, hfail]
  | qRd => rw [phaseStep_qRd io hph, phaseStep_qRd io' hph, hfail, hdout]
  | dWr => rw [phaseStep_dWr io hph, phaseStep_dWr io' hph, hfail]
  | uWr => rw [phaseStep_uWr io hph, phaseStep_uWr io' hph, hfail]
  | poll => rw [phaseStep_poll io hph, phaseStep_poll io' hph, hfail, hdout]
  | ckHi => rw [phaseStep_ckHi io hph, phaseStep_ckHi io' hph, hfail]
  | ckLo => rw [phaseStep_ckLo io hph, phaseStep_ckLo io' hph, hfail]
  | smp => rw [phaseStep_smp io hph, phaseStep_smp io' hph, hfail, hdout]

/-- Settles O7: a busy block's step is a reset or its phase's step. -/
theorem busyBlockServesNoWord : Obligations.BusyBlockServesNoWord := by
  unfold Obligations.BusyBlockServesNoWord
  intro s io rest valid w hbusy hin
  rw [step_cons hin, step_cons rfl]
  simp only [tick, hbusy, if_false]
  rw [phaseStep_congr (io := io) (io' := { io with cmdValid := valid, cmdWord := w }) rfl rfl]

end Sys2Proof.Proofs
end

