-- ==== Sys2Proof/Proofs/StepInvariant.lean ====
section
/-! Every step keeps the invariant. `Inv` falls into three parts: what holds in every phase (`Settled`), what the
current phase rests on (`PhaseFacts`) and the response registers (`ResponseFacts`). Each part is kept by acceptance and by
every phase's step. -/

namespace Sys2Proof.Proofs

open Sys2Proof.Machine Sys2Proof.Safety

/-- INIT's channel is read back from its word (R96). -/
@[simp] theorem initChannelField_encode_init (p q : Pin) (g : Gain) (c : Channel) (bo yo : Order) :
    initChannelField (encode (.init p q g c bo yo)) = c := by
  cases c <;> simp [initChannelField, channelOfBit, encode, placeAt, Channel.code]

/-- INIT's gain is read back from its word (R96). -/
@[simp] theorem initGainField_encode_init (p q : Pin) (g : Gain) (c : Channel) (bo yo : Order) :
    initGainField (encode (.init p q g c bo yo)) = g := by
  unfold initGainField encode placeAt
  ext j hj
  interval_cases j <;> simp

/-- SAMPLE as R221 writes it is sign-extended (R36). -/
theorem sextFrame_sign (f : Frame) : sextFrame f = ((sextFrame f).setWidth 24).signExtend 32 := by
  have h : (f.signExtend 32).setWidth 24 = f := by
    ext j hj
    simp [BitVec.getElem_signExtend, hj, show j < 32 by omega]
  simp only [sextFrame, h]

/-- The parts of `Inv` that hold in every phase: the pair (R42), the block before INIT (R20, R242), the level of the
clock (R43) and SAMPLE (R36). -/
structure Settled (s : State) : Prop where
  pairValid : s.life = .configured → validPair s.chan s.gain = true
  unconfiguredLow : s.life = .unconfigured → s.pwr = .active ∧ s.sck = false
  clockLevel : noFailure s.trace = true → s.sck = decide (s.ph = .ckLo ∨ s.pwr = .poweredDown)
  sampleSign : s.sample = (s.sample.setWidth 24).signExtend 32

/-- A frame is being read for RDRAW or PWRUP, the block Configured and Active (R193, R212, R224). -/
structure Reading (s : State) : Prop where
  life : s.life = .configured
  cmd : s.cmd = encode .rdraw ∨ s.cmd = encode .pwrup
  pwr : s.pwr = .active

/-- The count of a bit slot is below the frame's pulses (R44). -/
def CountBelowTotal (s : State) : Prop := ∀ total, totalPulses s.chan s.gain = some total → s.pcnt.toNat < total

/-- INIT is in progress, under its word (R170). -/
def Initialising (s : State) : Prop :=
  s.life = .unconfigured ∧ ∃ p q g c bo yo, s.cmd = encode (.init p q g c bo yo) ∧ validPair c g = true

/-- The parts of `Inv` that speak of the phase, phase by phase. -/
def PhaseFacts (s : State) : Prop :=
  match s.ph with
  | .idle => True
  | .iOut | .iIn | .iWr => Initialising s
  | .qRd => s.life = .configured ∧ s.cmd = encode .rdy
  | .dWr => s.life = .configured ∧ s.cmd = encode .pwrdn ∧ s.pwr = .active
  | .uWr => s.life = .configured ∧ s.cmd = encode .pwrup ∧ s.pwr = .poweredDown
  | .poll => Reading s ∧ s.pcnt = 0#5
  | .ckHi | .ckLo | .smp => Reading s ∧ CountBelowTotal s

/-- The parts of `Inv` that speak of the response registers (R37, R39, R231). -/
structure ResponseFacts (s : State) : Prop where
  busyNoResponse : s.ph ≠ .idle → s.rspValid = false
  statusKnown : s.rspStatus.toNat ≤ 4
  errorData : s.rspStatus ≠ okCode → s.rspData = 0#32

theorem phaseFacts_of_inv {s : State} (h : Inv s) : PhaseFacts s := by
  have hlife := h.configuredWhenBusy
  have hreading (hr : readingFrame s.ph) (hl : s.life = .configured) : Reading s :=
    ⟨hl, h.frameReader hr, h.frameActive hr⟩
  cases hph : s.ph <;> simp only [PhaseFacts, hph]
  case iOut | iIn | iWr => exact h.initWord (by simp [initialising, hph])
  all_goals replace hlife := hlife (by simp [hph]) (by simp [initialising, hph])
  case qRd => exact ⟨hlife, h.readyWord hph⟩
  case dWr => exact ⟨hlife, h.downWord hph, h.downFromActive hph⟩
  case uWr => exact ⟨hlife, h.upWord hph, h.upFromDown hph⟩
  case poll => exact ⟨hreading (by simp [readingFrame, hph]) hlife, h.pollCount hph⟩
  case ckHi | ckLo | smp =>
    exact ⟨hreading (by simp [readingFrame, hph]) hlife, h.slotCount (by simp [inSlot, hph])⟩

theorem PhaseFacts.reading {s : State} (h : PhaseFacts s) (hph : readingFrame s.ph) : Reading s := by
  rcases hph with hph | hph | hph | hph <;> simp only [PhaseFacts, hph] at h <;> exact h.1

theorem PhaseFacts.configured {s : State} (h : PhaseFacts s) (hbusy : s.ph ≠ .idle) (hinit : ¬ initialising s.ph) :
    s.life = .configured := by
  cases hph : s.ph <;> simp only [PhaseFacts, hph] at h
  case idle => exact absurd hph hbusy
  case iOut | iIn | iWr => simp [initialising, hph] at hinit
  case qRd | dWr | uWr => exact h.1
  case poll | ckHi | ckLo | smp => exact h.1.life

theorem PhaseFacts.down {s : State} (h : PhaseFacts s) (hph : s.ph = .dWr) :
    s.cmd = encode .pwrdn ∧ s.pwr = .active := by
  simp only [PhaseFacts, hph] at h
  exact h.2

theorem PhaseFacts.up {s : State} (h : PhaseFacts s) (hph : s.ph = .uWr) :
    s.cmd = encode .pwrup ∧ s.pwr = .poweredDown := by
  simp only [PhaseFacts, hph] at h
  exact h.2

theorem inv_iff {s : State} : Inv s ↔ Settled s ∧ PhaseFacts s ∧ ResponseFacts s := by
  constructor
  · intro h
    exact ⟨⟨h.pairValid, h.unconfiguredLow, by simpa [beq_eq_decide] using h.clockLevel, h.sampleSign⟩,
      phaseFacts_of_inv h, ⟨h.busyNoResponse, h.statusKnown, h.errorData⟩⟩
  · rintro ⟨hs, hp, hr⟩
    exact {
      pairValid := hs.pairValid
      unconfiguredLow := hs.unconfiguredLow
      clockLevel := by simpa [beq_eq_decide] using hs.clockLevel
      sampleSign := hs.sampleSign
      initWord := by rintro (h | h | h) <;> simpa only [PhaseFacts, Initialising, h] using hp
      configuredWhenBusy := hp.configured
      readyWord := fun h => by simp only [PhaseFacts, h] at hp; exact hp.2
      downWord := fun h => (hp.down h).1
      upWord := fun h => (hp.up h).1
      frameReader := fun h => (hp.reading h).cmd
      frameActive := fun h => (hp.reading h).pwr
      downFromActive := fun h => (hp.down h).2
      upFromDown := fun h => (hp.up h).2
      pollCount := fun h => by simp only [PhaseFacts, h] at hp; exact hp.2
      slotCount := by rintro (h | h | h) <;> simp only [PhaseFacts, h] at hp <;> exact hp.2
      busyNoResponse := hr.busyNoResponse
      statusKnown := hr.statusKnown
      errorData := hr.errorData }

/-- An answer fits the response registers when its status has a code and its data is 0 on an error (R39, R231). -/
theorem responseFacts_respond {status : StatusCode} {d : Word} (hcode : status.toNat ≤ 4)
    (hd : status ≠ okCode → d = 0#32) (s : State) : ResponseFacts (s.respond status d) :=
  ⟨by simp, by simpa using hcode, by simpa using hd⟩

theorem responseFacts_respond_ok (d : Word) (s : State) : ResponseFacts (s.respond okCode d) :=
  responseFacts_respond (by decide) (fun h => absurd rfl h) s

theorem responseFacts_raise (e : CmdError) (s : State) : ResponseFacts (s.raise e) :=
  responseFacts_respond (by cases e <;> decide) (fun _ => rfl) s

theorem responseFacts_accepted {w : Word} {s t : State} (h : ResponseFacts s) (ha : Accepted w s t) :
    ResponseFacts t := by
  cases ha with
  | refused e => exact responseFacts_raise e _
  | answered | setgain | setchan => exact responseFacts_respond_ok _ _
  | init | rdy | rdraw | pwrdn | pwrup => exact ⟨by simp, by simpa using h.statusKnown, by simpa using h.errorData⟩

theorem responseFacts_phaseDone {io : PortSample} {s t : State} (hbusy : s.ph ≠ .idle) (h : ResponseFacts s)
    (hp : PhaseDone io s t) : ResponseFacts t := by
  cases hp with
  | failed => exact responseFacts_raise .io _
  | iWr | qRd | dWr | rdrawEnd | pwrupEnd => exact responseFacts_respond_ok _ _
  | poll =>
    exact ⟨fun _ => by simpa using h.busyNoResponse hbusy, by simpa using h.statusKnown, by simpa using h.errorData⟩
  | iOut | iIn | uWr | ckHi | ckLo | nextSlot =>
    exact ⟨by simpa using h.busyNoResponse hbusy, by simpa using h.statusKnown, by simpa using h.errorData⟩

/-- Acceptance changes GAIN or CHAN to a valid pair only, and no other register `Settled` speaks of. -/
theorem settled_accepted {w : Word} {s t : State} (hidle : s.ph = .idle) (h : Settled s) (ha : Accepted w s t) :
    Settled t := by
  have hclock := h.clockLevel
  cases ha with
  | setgain g _ _ hpair | setchan c _ _ hpair =>
    exact ⟨fun _ => hpair, h.unconfiguredLow, by simpa [hidle] using hclock, h.sampleSign⟩
  | _ => exact ⟨h.pairValid, h.unconfiguredLow, by simpa [hidle] using hclock, h.sampleSign⟩

/-- A phase's step keeps `Settled`: INIT's commit takes the pair from its checked word, a completed write leaves the
level the next phase and PWR ask for, and the end of RDRAW's frame read sign-extends. -/
theorem settled_phaseDone {io : PortSample} {s t : State} (h : Settled s) (hf : PhaseFacts s)
    (hp : PhaseDone io s t) : Settled t := by
  have hclock := h.clockLevel
  cases hp with
  | failed e _ he =>
    exact ⟨h.pairValid, h.unconfiguredLow, by simp [isFailed_of_phaseEventFailed he], h.sampleSign⟩
  | iWr hph =>
    simp only [PhaseFacts, hph] at hf
    obtain ⟨-, p, q, g, c, bo, yo, hcmd, hpair⟩ := hf
    exact ⟨by simpa [hcmd] using hpair, by simp, by simp, h.sampleSign⟩
  | dWr hph | uWr hph =>
    simp only [PhaseFacts, hph] at hf
    exact ⟨by simpa using h.pairValid, by simp [hf.1], by simp, h.sampleSign⟩
  | rdrawEnd total u hph _ _ _ _ hu =>
    exact ⟨by simpa [hu] using h.pairValid, by simpa [hu] using h.unconfiguredLow,
      by simpa [hu, hph, isFailed] using hclock, sextFrame_sign _⟩
  | pwrupEnd total u hph _ _ _ _ hu =>
    exact ⟨by simpa [hu] using h.pairValid, by simpa [hu] using h.unconfiguredLow,
      by simpa [hu, hph, isFailed] using hclock, by simpa [hu] using h.sampleSign⟩
  | ckHi hph | ckLo hph =>
    have hr := hf.reading (by simp [readingFrame, hph])
    exact ⟨h.pairValid, by simp [hr.life], by simp [hr.pwr], h.sampleSign⟩
  | poll hph =>
    refine ⟨h.pairValid, h.unconfiguredLow, ?_, h.sampleSign⟩
    cases hd : dataReady io.dout <;> simpa [hph, hd, isFailed] using hclock
  | iOut hph | iIn hph | qRd hph | nextSlot _ hph =>
    exact ⟨by simpa using h.pairValid, by simpa using h.unconfiguredLow, by simpa [hph, isFailed] using hclock,
      by simpa using h.sampleSign⟩

/-- An accepted word leads to an idle block or to the first phase of its command. -/
theorem phaseFacts_accepted {w : Word} {s t : State} (ha : Accepted w s t) : PhaseFacts t := by
  cases ha with
  | refused | answered | setgain | setchan => trivial
  | init p q g c bo yo _ hlife hpair => exact ⟨hlife, p, q, g, c, bo, yo, rfl, hpair⟩
  | rdy _ hlife => exact ⟨hlife, rfl⟩
  | rdraw _ hlife hpwr => exact ⟨⟨hlife, .inl rfl, hpwr⟩, rfl⟩
  | pwrdn _ hlife hpwr | pwrup _ hlife hpwr => exact ⟨hlife, rfl, hpwr⟩

/-- Every frame has at least 25 pulses (R93), so none is the last before the first is made. -/
theorem twentyFive_le_totalPulses {c : Channel} {g : Gain} {total : Nat} (h : totalPulses c g = some total) :
    25 ≤ total := by
  obtain ⟨n, hn, rfl⟩ := totalPulses_eq_some.mp h
  have := idlePulses_eq_some.mp hn
  omega

/-- A count below the total that does not reach it with this slot stays below it, and does not wrap (R44). -/
theorem countBelowTotal_succ {n : BitVec 5} {total : Nat} (hn : n.toNat < total)
    (hne : (n + 1#5).toNat ≠ total) : (n + 1#5).toNat < total := by
  have hle : (n + 1#5).toNat ≤ n.toNat + 1 := by
    rw [BitVec.toNat_add]
    exact Nat.mod_le _ _
  omega

/-- The event of a phase leads to an idle block or to the next phase of the same command. -/
theorem phaseFacts_phaseDone {io : PortSample} {s t : State} (h : PhaseFacts s) (hp : PhaseDone io s t) :
    PhaseFacts t := by
  cases hp with
  | failed | iWr | qRd | dWr | rdrawEnd | pwrupEnd => trivial
  | iOut hph | iIn hph =>
    simp only [PhaseFacts, hph] at h
    exact h
  | uWr hph =>
    simp only [PhaseFacts, hph] at h
    obtain ⟨hlife, hcmd, -⟩ := h
    exact ⟨⟨hlife, .inr hcmd, rfl⟩, rfl⟩
  | poll hph =>
    simp only [PhaseFacts, hph] at h
    obtain ⟨hr, hcount⟩ := h
    cases hd : dataReady io.dout
    · exact ⟨⟨hr.life, hr.cmd, hr.pwr⟩, hcount⟩
    · refine ⟨⟨hr.life, hr.cmd, hr.pwr⟩, fun total htotal => ?_⟩
      have hpulses := twentyFive_le_totalPulses htotal
      simpa [hcount] using (show 0 < total by omega)
  | ckHi hph | ckLo hph =>
    simp only [PhaseFacts, hph] at h
    obtain ⟨hr, hcount⟩ := h
    exact ⟨⟨hr.life, hr.cmd, hr.pwr⟩, hcount⟩
  | nextSlot total hph _ htotal hne =>
    simp only [PhaseFacts, hph] at h
    obtain ⟨hr, hcount⟩ := h
    refine ⟨⟨by simpa using hr.life, by simpa using hr.cmd, by simpa using hr.pwr⟩, fun total' htotal' => ?_⟩
    obtain rfl : total = total' := by simpa [htotal] using htotal'
    simpa using countBelowTotal_succ (hcount total htotal) hne

theorem inv_accepted {w : Word} {s t : State} (hidle : s.ph = .idle) (h : Inv s) (ha : Accepted w s t) : Inv t := by
  obtain ⟨hs, -, hr⟩ := inv_iff.mp h
  exact inv_iff.mpr ⟨settled_accepted hidle hs ha, phaseFacts_accepted ha, responseFacts_accepted hr ha⟩

theorem inv_phaseDone {io : PortSample} {s t : State} (hbusy : s.ph ≠ .idle) (h : Inv s) (hp : PhaseDone io s t) :
    Inv t := by
  obtain ⟨hs, hf, hr⟩ := inv_iff.mp h
  exact inv_iff.mpr ⟨settled_phaseDone hs hf hp, phaseFacts_phaseDone hf hp, responseFacts_phaseDone hbusy hr hp⟩

theorem inv_resetBlock (s : State) : Inv s.resetBlock :=
  inv_iff.mpr ⟨⟨nofun, fun _ => ⟨rfl, rfl⟩, fun _ => rfl, rfl⟩, trivial, fun h => absurd rfl h, Nat.zero_le 4,
    fun _ => rfl⟩

/-- The invariant does not speak of the environment. -/
theorem inv_advance {s : State} (h : Inv s) : Inv s.advance := by
  unfold State.advance
  split <;> exact { h with }

/-- Settles O50: reset, waiting, acceptance and every phase's step keep the invariant. -/
theorem stepKeepsTheInvariant : Obligations.StepKeepsTheInvariant := by
  unfold Obligations.StepKeepsTheInvariant
  intro s t
  exact step_keeps (fun s _ => inv_resetBlock s) (fun _ => inv_advance) (fun _ _ _ => inv_accepted)
    (fun _ _ _ => inv_phaseDone)

end Sys2Proof.Proofs
end

