-- ==== Sys2Proof/Proofs/OpenResetValues.lean ====
section
/-! The registers reset leaves open are written before they are read (R45). Two blocks are `Alike` when they agree on
what R20 gives and on the configuration once there is one. They are `InStep` when they also agree on CMD while a command
is in progress, and in a frame read on PCNT, ACC and the bytes already assembled. Every step under one environment keeps
two blocks in step. -/

namespace Sys2Proof.Proofs

open Sys2Proof.Machine Sys2Proof.Safety

/-- The first `n` bytes of a frame agree. -/
def BytesBelow (n : Nat) (a b : ByteSeq) : Prop :=
  (0 < n → a.b0 = b.b0) ∧ (1 < n → a.b1 = b.b1) ∧ (2 < n → a.b2 = b.b2)

theorem BytesBelow.eq {n : Nat} {a b : ByteSeq} (h : BytesBelow n a b) (hn : 3 ≤ n) : a = b := by
  obtain ⟨h0, h1, h2⟩ := h
  cases a
  cases b
  simp_all [show 0 < n by omega, show 1 < n by omega, show 2 < n by omega]

theorem BytesBelow.mono {m n : Nat} {a b : ByteSeq} (h : BytesBelow n a b) (hmn : m ≤ n) : BytesBelow m a b :=
  ⟨fun hm => h.1 (by omega), fun hm => h.2.1 (by omega), fun hm => h.2.2 (by omega)⟩

theorem BytesBelow.set {n : Nat} {a b : ByteSeq} (h : BytesBelow n a b) (hn : n < 3) (v : Byte) :
    BytesBelow (n + 1) (a.set n v) (b.set n v) := by
  obtain ⟨h0, h1, h2⟩ := h
  interval_cases n <;> simp_all [BytesBelow, ByteSeq.set]

/-- The configuration registers agree (R22 to R27). -/
def SameConfig (s t : State) : Prop :=
  s.clkpin = t.clkpin ∧ s.datpin = t.datpin ∧ s.gain = t.gain ∧ s.chan = t.chan ∧ s.bitord = t.bitord ∧
    s.byteord = t.byteord

/-- The registers of a frame read agree, of BYTES those that this frame has filled (R32 to R34). -/
def SameFrame (s t : State) : Prop :=
  s.pcnt = t.pcnt ∧ s.acc = t.acc ∧ BytesBelow (s.pcnt.toNat / 8) s.bytes t.bytes

/-- Two blocks agree on what R20 gives a reset value for, on the history and the environment, on the response while
there is one, and on the configuration once Configured. -/
structure Alike (s t : State) : Prop where
  life : s.life = t.life
  pwr : s.pwr = t.pwr
  sck : s.sck = t.sck
  ph : s.ph = t.ph
  rspValid : s.rspValid = t.rspValid
  response : s.rspValid = true → s.rspStatus = t.rspStatus ∧ s.rspData = t.rspData
  trace : s.trace = t.trace
  responses : s.responses = t.responses
  inputs : s.inputs = t.inputs
  drawn : s.drawn = t.drawn
  config : s.life = .configured → SameConfig s t

/-- Two blocks alike, and agreeing on what the command in progress goes on from. -/
structure InStep (s t : State) : Prop extends Alike s t where
  cmd : s.ph ≠ .idle → s.cmd = t.cmd
  configured : s.ph ≠ .idle → ¬ initialising s.ph → s.life = .configured
  frame : readingFrame s.ph → SameFrame s t

/-- Two outcomes agree: states in step, or the same stop. -/
def InStepOutcome : Result → Result → Prop
  | .next s, .next t => InStep s t
  | .fault a, .fault b => a = b
  | .refused a, .refused b => a = b
  | _, _ => False

section Operations

variable {s t : State}

theorem Alike.log (h : Alike s t) (e : PinEvent) : Alike (s.log e) (t.log e) :=
  { h with trace := congrArg (· ++ [e]) h.trace }

theorem Alike.logWrite (h : Alike s t) (p : Pin) (l : Level) :
    Alike { s.log (.write p l) with sck := l } { t.log (.write p l) with sck := l } :=
  { h.log (.write p l) with sck := rfl }

theorem Alike.beginCommand (h : Alike s t) : Alike s.beginCommand t.beginCommand :=
  { h with rspValid := rfl, response := nofun }

theorem Alike.latch (h : Alike s t) (i : Instr) : Alike (s.latch i) (t.latch i) := { h with }

/-- A block that has answered has nothing in progress. -/
theorem Alike.respond (h : Alike s t) (status : StatusCode) (d : Word) :
    InStep (s.respond status d) (t.respond status d) :=
  { h with
    ph := rfl, rspValid := rfl, response := fun _ => ⟨rfl, rfl⟩
    responses := congrArg (· ++ [(⟨status, d⟩ : Response)]) h.responses
    cmd := fun hb => absurd rfl hb, configured := fun hb => absurd rfl hb
    frame := by simp [readingFrame] }

theorem Alike.enter (h : Alike s t) {p : Phase} (hcmd : s.cmd = t.cmd)
    (hlife : ¬ initialising p → s.life = .configured) (hframe : readingFrame p → SameFrame s t) :
    InStep (s.enter p) (t.enter p) :=
  { h with ph := rfl, cmd := fun _ => hcmd, configured := fun _ => hlife, frame := hframe }

/-- A frame starts with no byte assembled. -/
theorem Alike.startFrame (h : Alike s t) (hcmd : s.cmd = t.cmd) (hlife : s.life = .configured) :
    InStep s.startFrame t.startFrame :=
  { h with
    ph := rfl, cmd := fun _ => hcmd, configured := fun _ _ => hlife
    frame := fun _ => ⟨rfl, rfl, by simp [BytesBelow]⟩ }

theorem Alike.commitConfig (h : Alike s t) (hcmd : s.cmd = t.cmd) : Alike s.commitConfig t.commitConfig :=
  { h with life := rfl, pwr := rfl, config := fun _ => by simp [SameConfig, hcmd] }

theorem Alike.assembleBit_countPulse (h : Alike s t) (b : Level) :
    Alike (s.assembleBit b).countPulse (t.assembleBit b).countPulse := by
  obtain ⟨hlife, hpwr, hsck, hph, hvalid, hrsp, htrace, hrsps, hin, hdrawn, hconf⟩ := h
  constructor <;> simpa [SameConfig]

/-- A data slot that is not its byte's last shifts ACC only (R220). -/
theorem assembleBit_shift {s : State} (hn : s.pcnt.toNat < 24) (h7 : s.pcnt.toNat % 8 ≠ 7) (b : Level) :
    s.assembleBit b = { s with acc := orderStep s.bitord s.acc b } := by
  simp [State.assembleBit, Config.frameBits, Config.byteBits, hn, h7]

/-- The last slot of a byte stores it (R220). -/
theorem assembleBit_store {s : State} (hn : s.pcnt.toNat < 24) (h7 : s.pcnt.toNat % 8 = 7) (b : Level) :
    s.assembleBit b =
      { s with bytes := s.bytes.set (s.pcnt.toNat / 8) (orderStep s.bitord s.acc b), acc := 0#8 } := by
  simp [State.assembleBit, Config.frameBits, Config.byteBits, hn, h7]

/-- An idle slot assembles nothing (R146). -/
theorem assembleBit_discard {s : State} (hn : ¬ s.pcnt.toNat < 24) (b : Level) : s.assembleBit b = s := by
  simp [State.assembleBit, Config.frameBits, hn]

/-- One more slot: the byte it completes, if any, agrees as well. -/
theorem SameFrame.assembleBit_countPulse (h : SameFrame s t) (hbit : s.bitord = t.bitord) (b : Level) :
    SameFrame (s.assembleBit b).countPulse (t.assembleBit b).countPulse := by
  obtain ⟨hpcnt, hacc, hbytes⟩ := h
  have hstep : orderStep s.bitord s.acc b = orderStep t.bitord t.acc b := by rw [hbit, hacc]
  refine ⟨by simp [hpcnt], ?_⟩
  by_cases hn : s.pcnt.toNat < 24
  · by_cases h7 : s.pcnt.toNat % 8 = 7
    · rw [assembleBit_store hn h7, assembleBit_store (hpcnt ▸ hn) (hpcnt ▸ h7), ← hstep, ← hpcnt]
      exact ⟨rfl, (hbytes.set (by omega) _).mono (by simp; omega)⟩
    · rw [assembleBit_shift hn h7, assembleBit_shift (hpcnt ▸ hn) (hpcnt ▸ h7), ← hstep]
      exact ⟨rfl, hbytes.mono (by simp; omega)⟩
  · rw [assembleBit_discard hn, assembleBit_discard (hpcnt ▸ hn)]
    refine ⟨hacc, ?_⟩
    have hall := hbytes.eq (by omega)
    simp [BytesBelow, hall]

/-- One pin event of two alike blocks: both fail, or both go on (R66, R225). -/
theorem inStep_event {io : PortSample} {k k' : Result} (h : Alike s t) (e : PinEvent) (hk : InStepOutcome k k') :
    InStepOutcome (if io.ioFail then .next ((s.log e).raise .io) else k)
      (if io.ioFail then .next ((t.log e).raise .io) else k') := by
  cases io.ioFail with
  | false => exact hk
  | true => exact (h.log e).respond _ _

/-- Acceptance under the same check: both are refused, or both start (R212). -/
theorem inStep_checked {check check' : Option CmdError} {start start' : State → State} (h : Alike s t)
    (hcheck : check = check')
    (hstart : check = none → InStep (start s.beginCommand) (start' t.beginCommand)) :
    InStepOutcome (.next (s.checked check start)) (.next (t.checked check' start')) := by
  subst hcheck
  cases check with
  | none => exact hstart rfl
  | some e => exact h.beginCommand.respond _ _

/-- The checks after the lifecycle check may read the configuration: it is asked for only when there is one (R238). -/
theorem Alike.lifecycleCheck_or_congr (h : Alike s t) {a b : Option CmdError} (hab : SameConfig s t → a = b) :
    (lifecycleCheck .configured s).or a = (lifecycleCheck .configured t).or b := by
  unfold lifecycleCheck
  rw [← h.life]
  split
  next hl => simpa using hab (h.config hl)
  next => rfl

theorem Alike.lifecycleCheck_congr (h : Alike s t) (want : Life) : lifecycleCheck want s = lifecycleCheck want t := by
  simp only [lifecycleCheck, h.life]

/-- A frame read ends only after its three bytes are assembled, so what it packs agrees. -/
theorem inStep_endFrame (h : Alike s t) (hcmd : s.cmd = t.cmd) (hlife : s.life = .configured) (hf : SameFrame s t)
    (hcount : 25 ≤ s.pcnt.toNat) : InStepOutcome (endFrame s) (endFrame t) := by
  obtain ⟨-, -, hbytes⟩ := hf
  obtain ⟨-, -, -, -, -, hbyte⟩ := h.config hlife
  have hpack : pack s.bytes s.byteord = pack t.bytes t.byteord := by rw [hbytes.eq (by omega), hbyte]
  unfold endFrame
  rw [← hcmd, ← hpack]
  split
  · refine Alike.respond ?_ _ _
    exact { h with }
  · split
    · refine Alike.respond ?_ _ _
      exact { h with }
    · rfl

theorem inStep_nextSlot (h : Alike s t) (hcmd : s.cmd = t.cmd) (hlife : s.life = .configured) (hf : SameFrame s t) :
    InStepOutcome (nextSlot s) (nextSlot t) := by
  obtain ⟨-, -, hgain, hchan, -⟩ := h.config hlife
  have hpcnt := hf.1
  cases htotal : totalPulses s.chan s.gain with
  | none => simp [nextSlot, ← hgain, ← hchan, htotal, InStepOutcome]
  | some total =>
    have htotal' : totalPulses t.chan t.gain = some total := by rw [← hgain, ← hchan, htotal]
    by_cases hn : s.pcnt.toNat = total
    · rw [nextSlot_end htotal hn, nextSlot_end htotal' (hpcnt ▸ hn)]
      exact inStep_endFrame h hcmd hlife hf (hn ▸ twentyFive_le_totalPulses htotal)
    · rw [nextSlot_continue htotal hn, nextSlot_continue htotal' (hpcnt ▸ hn)]
      exact h.enter hcmd (fun _ => hlife) (fun _ => hf)

/-- Acceptance reads the configuration only of a Configured block, and CMD, PCNT, ACC and BYTES not at all. -/
theorem inStep_exec (h : Alike s t) (i : Instr) : InStepOutcome (exec i s) (exec i t) := by
  have hb := h.beginCommand
  have hlife {want : Life} : lifecycleCheck want s = none → s.life = want := lifecycleCheck_eq_none.mp
  cases i with
  | init p q g c bo yo =>
    exact inStep_checked h (by rw [h.lifecycleCheck_congr]) fun _ =>
      (hb.latch _).enter rfl (by simp [initialising]) (by simp [readingFrame])
  | setgain g =>
    refine inStep_checked h (h.lifecycleCheck_or_congr fun ⟨_, _, _, hchan, _⟩ => by rw [hchan]) fun _ => ?_
    have hconfig (hl : s.life = .configured) : SameConfig { s with gain := g } { t with gain := g } := by
      obtain ⟨hclk, hdat, -, hrest⟩ := h.config hl
      exact ⟨hclk, hdat, rfl, hrest⟩
    refine Alike.respond ?_ _ _
    exact { hb with config := hconfig }
  | getgain =>
    refine inStep_checked h (h.lifecycleCheck_congr _) fun hc => ?_
    obtain ⟨-, -, hgain, -⟩ := hb.config (hlife hc)
    exact hgain ▸ hb.respond _ _
  | setchan c =>
    refine inStep_checked h (h.lifecycleCheck_or_congr fun ⟨_, _, hgain, _⟩ => by rw [hgain]) fun _ => ?_
    have hconfig (hl : s.life = .configured) : SameConfig { s with chan := c } { t with chan := c } := by
      obtain ⟨hclk, hdat, hgain, -, hrest⟩ := h.config hl
      exact ⟨hclk, hdat, hgain, rfl, hrest⟩
    refine Alike.respond ?_ _ _
    exact { hb with config := hconfig }
  | getchan =>
    refine inStep_checked h (h.lifecycleCheck_congr _) fun hc => ?_
    obtain ⟨-, -, -, hchan, -⟩ := hb.config (hlife hc)
    exact hchan ▸ hb.respond _ _
  | rdy =>
    exact inStep_checked h (h.lifecycleCheck_congr _) fun hc =>
      (hb.latch _).enter rfl (fun _ => hlife hc) (by simp [readingFrame])
  | rdraw =>
    refine inStep_checked h (by rw [h.lifecycleCheck_congr, powerGate, powerGate, h.pwr]) fun hc => ?_
    exact (hb.latch _).startFrame rfl (hlife (Option.or_eq_none_iff.mp hc).1)
  | pwrdn =>
    refine inStep_checked h (h.lifecycleCheck_congr _) fun hc => ?_
    rw [← hb.pwr]
    cases s.beginCommand.pwr with
    | poweredDown => exact hb.respond _ _
    | active => exact (hb.latch _).enter rfl (fun _ => hlife hc) (by simp [readingFrame])
  | pwrup =>
    refine inStep_checked h (h.lifecycleCheck_congr _) fun hc => ?_
    rw [← hb.pwr]
    cases s.beginCommand.pwr with
    | active => exact hb.respond _ _
    | poweredDown => exact (hb.latch _).enter rfl (fun _ => hlife hc) (by simp [readingFrame])

theorem inStep_accept (h : Alike s t) (w : Word) : InStepOutcome (accept w s) (accept w t) := by
  unfold accept
  split
  · exact inStep_exec h _
  · exact h.beginCommand.respond _ _

/-- A phase reads CMD, the configuration and the frame's registers only where they agree. -/
theorem inStep_phaseStep (io : PortSample) (h : InStep s t) (hbusy : s.ph ≠ .idle) :
    InStepOutcome (phaseStep io s) (phaseStep io t) := by
  have ha := h.toAlike
  have hcmd := h.cmd hbusy
  have hlife := h.configured hbusy
  have hframe := h.frame
  have hpht := h.ph
  cases hph : s.ph <;> rw [hph] at hpht
  case idle => exact absurd hph hbusy
  case iOut =>
    rw [phaseStep_iOut io hph, phaseStep_iOut io hpht.symm, ← hcmd]
    exact inStep_event ha _ ((ha.log _).enter hcmd (by simp [initialising]) (by simp [readingFrame]))
  case iIn =>
    rw [phaseStep_iIn io hph, phaseStep_iIn io hpht.symm, ← hcmd]
    exact inStep_event ha _ ((ha.log _).enter hcmd (by simp [initialising]) (by simp [readingFrame]))
  case iWr =>
    rw [phaseStep_iWr io hph, phaseStep_iWr io hpht.symm, ← hcmd]
    exact inStep_event ha _ (((ha.logWrite _ _).commitConfig hcmd).respond _ _)
  all_goals
    replace hlife := hlife (by simp [initialising, hph])
    obtain ⟨hclk, hdat, -, -, hbit, -⟩ := ha.config hlife
  case qRd =>
    rw [phaseStep_qRd io hph, phaseStep_qRd io hpht.symm, ← hdat]
    exact inStep_event ha _ ((ha.log _).respond _ _)
  case dWr =>
    rw [phaseStep_dWr io hph, phaseStep_dWr io hpht.symm, ← hclk]
    refine inStep_event ha _ (Alike.respond ?_ _ _)
    exact { ha.logWrite _ _ with pwr := rfl }
  case uWr =>
    rw [phaseStep_uWr io hph, phaseStep_uWr io hpht.symm, ← hclk]
    refine inStep_event ha _ (Alike.startFrame ?_ hcmd hlife)
    exact { ha.logWrite _ _ with pwr := rfl }
  all_goals replace hframe := hframe (by simp [readingFrame, hph])
  case poll =>
    rw [phaseStep_poll io hph, phaseStep_poll io hpht.symm, ← hdat]
    exact inStep_event ha _ ((ha.log _).enter hcmd (fun _ => hlife) (fun _ => hframe))
  case ckHi =>
    rw [phaseStep_ckHi io hph, phaseStep_ckHi io hpht.symm, ← hclk]
    exact inStep_event ha _ ((ha.logWrite _ _).enter hcmd (fun _ => hlife) (fun _ => hframe))
  case ckLo =>
    rw [phaseStep_ckLo io hph, phaseStep_ckLo io hpht.symm, ← hclk]
    exact inStep_event ha _ ((ha.logWrite _ _).enter hcmd (fun _ => hlife) (fun _ => hframe))
  case smp =>
    rw [phaseStep_smp io hph, phaseStep_smp io hpht.symm, ← hdat]
    refine inStep_event ha _ (inStep_nextSlot ((ha.log _).assembleBit_countPulse _) ?_ ?_ ?_)
    · simpa using hcmd
    · simpa using hlife
    · exact SameFrame.assembleBit_countPulse (s := s.log _) (t := t.log _) hframe hbit _

/-- Two blocks as a reset leaves them are in step: nothing is configured and nothing in progress. -/
theorem inStep_of_resetLike (hs : ResetLike s) (ht : ResetLike t) (hin : s.inputs = t.inputs)
    (hdrawn : s.drawn = t.drawn) : InStep s t where
  life := hs.life.trans ht.life.symm
  pwr := hs.pwr.trans ht.pwr.symm
  sck := hs.sck.trans ht.sck.symm
  ph := hs.ph.trans ht.ph.symm
  rspValid := hs.rspValid.trans ht.rspValid.symm
  response := by simp [hs.rspValid]
  trace := hs.trace.trans ht.trace.symm
  responses := hs.responses.trans ht.responses.symm
  inputs := hin
  drawn := hdrawn
  config := by simp [hs.life]
  cmd := by simp [hs.ph]
  configured := by simp [hs.ph]
  frame := by simp [readingFrame, hs.ph]

theorem resetLike_resetBlock (s : State) : ResetLike s.resetBlock := ⟨rfl, rfl, rfl, rfl, rfl, rfl, rfl⟩

theorem InStep.ports (h : InStep s t) : s.ports = t.ports := by
  simp only [State.ports, h.inputs, h.drawn]

theorem InStep.advance (h : InStep s t) : InStep s.advance t.advance := by
  unfold State.advance
  rw [← h.inputs]
  split
  · exact { h with inputs := rfl }
  · exact { h with inputs := rfl, drawn := congrArg (· + 1) h.drawn }

/-- Blocks in step stay in step. -/
theorem inStep_step (h : InStep s t) : InStepOutcome (step s) (step t) := by
  have hadv := h.advance
  unfold step tick
  rw [← h.ports, ← hadv.ph]
  split
  · exact inStep_of_resetLike (resetLike_resetBlock _) (resetLike_resetBlock _) hadv.inputs hadv.drawn
  · split
    · split
      · exact inStep_accept hadv.toAlike _
      · exact hadv
    next hbusy => exact inStep_phaseStep _ hadv hbusy

end Operations

theorem runFor_succ_next {s u : State} (h : step s = .next u) (k : Nat) : runFor (k + 1) s = runFor k u := by
  simp only [runFor, Host.Core.run, show core.step s = .next u from h]
  rfl

theorem runFor_succ_fault {s : State} {r : Fault} (h : step s = .fault r) (k : Nat) :
    runFor (k + 1) s = .fault r := by
  simp only [runFor, Host.Core.run, show core.step s = .fault r from h]
  rfl

theorem runFor_succ_refused {s : State} {r : Refusal} (h : step s = .refused r) (k : Nat) :
    runFor (k + 1) s = .refused r := by
  simp only [runFor, Host.Core.run, show core.step s = .refused r from h]
  rfl

theorem inStep_runFor {s t : State} (h : InStep s t) (k : Nat) : InStepOutcome (runFor k s) (runFor k t) := by
  induction k generalizing s t with
  | zero => exact h
  | succ k ih =>
    have hstep := inStep_step h
    cases hs : step s <;> cases ht : step t <;> rw [hs, ht] at hstep
    case next.next => rw [runFor_succ_next hs, runFor_succ_next ht]; exact ih hstep
    case fault.fault => rw [runFor_succ_fault hs, runFor_succ_fault ht]; exact hstep
    case refused.refused => rw [runFor_succ_refused hs, runFor_succ_refused ht]; exact hstep
    all_goals exact hstep.elim

theorem sameView_of_alike {s t : State} (h : Alike s t) : SameView s t where
  cmdReady := by simp only [State.busy, h.ph]
  rspValid := h.rspValid
  response := h.response
  pdSck := h.sck
  pdSckOe := h.life
  trace := h.trace
  responses := h.responses

theorem sameViewOutcome_of_inStep {a b : Result} (h : InStepOutcome a b) : sameViewOutcome a b := by
  cases a <;> cases b
  case next.next => exact sameView_of_alike h.toAlike
  all_goals exact h

/-- Settles O52: the two blocks start in step, and blocks in step look the same. -/
theorem openResetValuesNeverShow : Obligations.OpenResetValuesNeverShow := by
  unfold Obligations.OpenResetValuesNeverShow
  intro s t k hs ht hin hdrawn
  exact sameViewOutcome_of_inStep (inStep_runFor (inStep_of_resetLike hs ht hin hdrawn) k)

end Sys2Proof.Proofs
end

