-- ==== Sys2Proof/Proofs/ConfiguredPinAccess.lean ====
section
/-! Which pin event a step appends to the trace, and that a Configured block reaches its two pins only by writing the
clock pin and reading the data pin (R61, R67). -/

namespace Sys2Proof.Proofs

open Sys2Proof.Machine Sys2Proof.Safety

/-- A write of the clock pin or a read of the data pin, completed or failed (R61, R66). -/
def ClockWriteOrDataRead (s : State) (e : PinEvent) : Prop :=
  (∃ l, e = .write s.clkpin l) ∨ (∃ l, e = .writeFailed s.clkpin l) ∨ (∃ l, e = .read s.datpin l) ∨
    e = .readFailed s.datpin

/-- A phase's step appends that phase's one event, completed or failed (R66, R211). -/
theorem phaseDone_trace {io : PortSample} {s t : State} (h : PhaseDone io s t) :
    ∃ e, t.trace = s.trace ++ [e] ∧ (phaseEvent io s = [e] ∨ phaseEventFailed s = [e]) := by
  cases h with
  | failed e _ he => exact ⟨e, rfl, .inr he⟩
  | rdrawEnd _ _ hph _ _ _ _ hu | pwrupEnd _ _ hph _ _ _ _ hu => simp [phaseEvent, hph, hu]
  | _ => simp [phaseEvent, *]

/-- Outside INIT a phase's event is a write of CLKPIN or a read of DATPIN (R211). -/
theorem clockWriteOrDataRead_of_phaseEvent {io : PortSample} {s : State} {e : PinEvent}
    (hinit : ¬ initialising s.ph) (h : phaseEvent io s = [e] ∨ phaseEventFailed s = [e]) :
    ClockWriteOrDataRead s e := by
  cases hph : s.ph <;> simp only [phaseEvent, phaseEventFailed, hph] at h
  case idle => simp at h
  case iOut | iIn | iWr => simp [initialising, hph] at hinit
  case dWr | uWr | ckHi | ckLo =>
    obtain h | h := h <;> cases h
    · exact .inl ⟨_, rfl⟩
    · exact .inr (.inl ⟨_, rfl⟩)
  case qRd | poll | smp =>
    obtain h | h := h <;> cases h
    · exact .inr (.inr (.inl ⟨_, rfl⟩))
    · exact .inr (.inr (.inr rfl))

/-- INIT is in progress only while Unconfigured (R170). -/
theorem not_initialising_of_configured {s : State} (h : Inv s) (hlife : s.life = .configured) :
    ¬ initialising s.ph := by
  intro hinit
  obtain ⟨hunconfigured, -⟩ := h.initWord hinit
  simp [hunconfigured] at hlife

/-- Settles O45: only a phase's step makes a pin event, and a Configured block is in no phase of INIT. -/
theorem configuredPinAccess : Obligations.ConfiguredPinAccess := by
  unfold Obligations.ConfiguredPinAccess
  intro s t hinv hlife hr h
  cases stepped_of_step h hr with
  | waited => exact .inl s.advance_trace
  | accepted _ ha => exact .inl (by simpa using accepted_trace ha)
  | phase _ hp =>
    have hinit : ¬ initialising s.advance.ph :=
      not_initialising_of_configured (inv_advance hinv) (by simpa using hlife)
    obtain ⟨e, htrace, he⟩ := phaseDone_trace hp
    have haccess : ClockWriteOrDataRead s.advance e := clockWriteOrDataRead_of_phaseEvent hinit he
    exact .inr ⟨e, by simpa using htrace, by simpa [ClockWriteOrDataRead] using haccess⟩

end Sys2Proof.Proofs
end

