-- ==== Sys2Proof/Proofs/StepRules.lean ====
section
/-! One rule for each kind of step under a listed port sample (R210): a reset, the acceptance of a word, the step of a
phase whose pin event completes. -/

namespace Sys2Proof.Proofs

open Sys2Proof.Machine Sys2Proof.Safety

section ListedSample

variable {s : State} {io : PortSample} {rest : List PortSample}

theorem step_reset (hin : s.inputs = io :: rest) (hrst : io.rst = true) :
    step s = .next (State.resetBlock { s with inputs := rest }) := by
  simp [step_cons hin, tick, hrst]

theorem step_accept (hph : s.ph = .idle) (hin : s.inputs = io :: rest) (hrst : io.rst = false)
    (hvalid : io.cmdValid = true) : step s = accept io.cmdWord { s with inputs := rest } := by
  simp [step_cons hin, tick, hph, hrst, hvalid]

theorem step_phase (hph : s.ph ≠ .idle) (hin : s.inputs = io :: rest) (hrst : io.rst = false) :
    step s = phaseStep io { s with inputs := rest } := by
  simp [step_cons hin, tick, hph, hrst]

theorem smooth_iff : smooth io = true ↔ io.rst = false ∧ io.ioFail = false := by
  simp [smooth]

/-- R213. -/
theorem step_iOut (hph : s.ph = .iOut) (hin : s.inputs = io :: rest) (hio : smooth io = true) :
    step s = .next
      { s with inputs := rest, trace := s.trace ++ [.cfgOut (clockPinField s.cmd)], ph := .iIn } := by
  obtain ⟨hrst, hok⟩ := smooth_iff.mp hio
  rw [step_phase (by simp [hph]) hin hrst, phaseStep_iOut io (s := { s with inputs := rest }) hph, hok]
  rfl

/-- R214. -/
theorem step_iIn (hph : s.ph = .iIn) (hin : s.inputs = io :: rest) (hio : smooth io = true) :
    step s = .next
      { s with inputs := rest, trace := s.trace ++ [.cfgIn (dataPinField s.cmd)], ph := .iWr } := by
  obtain ⟨hrst, hok⟩ := smooth_iff.mp hio
  rw [step_phase (by simp [hph]) hin hrst, phaseStep_iIn io (s := { s with inputs := rest }) hph, hok]
  rfl

/-- R215. -/
theorem step_iWr (hph : s.ph = .iWr) (hin : s.inputs = io :: rest) (hio : smooth io = true) :
    step s = .next (answered 0#4 0#32
      { s with
        inputs := rest, trace := s.trace ++ [.write (clockPinField s.cmd) false], sck := false
        clkpin := clockPinField s.cmd, datpin := dataPinField s.cmd, gain := initGainField s.cmd
        chan := initChannelField s.cmd, bitord := bitOrderField s.cmd, byteord := byteOrderField s.cmd
        pwr := .active, life := .configured }) := by
  obtain ⟨hrst, hok⟩ := smooth_iff.mp hio
  rw [step_phase (by simp [hph]) hin hrst, phaseStep_iWr io (s := { s with inputs := rest }) hph, hok]
  rfl

end ListedSample

theorem runFor_zero (s : State) : runFor 0 s = .next s := rfl

/-- An illegal word is answered ERR_ILLEGAL, and nothing else changes (R105, R236). -/
theorem accept_illegal {w : Word} {why : IllegalWord} (h : decode w = .illegal why) (s : State) :
    accept w s = .next (answered 4#4 0#32 s) := by
  simp only [accept, h]
  rfl

theorem accept_command {w : Word} {i : Instr} (h : decode w = .command i) (s : State) : accept w s = exec i s := by
  simp only [accept, h]

end Sys2Proof.Proofs
end

