-- ==== Sys2Proof/Proofs/CommandFormats.lean ====
section
/-! Which words fit a command's format (R95 to R99). The opcode map's match and mask (R104), the decoder (R103) and the
list of illegal words (R105) each say when a word fits. -/

namespace Sys2Proof.Proofs

open Sys2Proof.Machine Sys2Proof.Safety
open Sys2Proof.Laws.OpcodeField (opcodeOf)

/-- The reserved bits of `i`'s format are 0 in the word `w` (R96 to R99). -/
def ReservedZero (w : Word) : Instr → Prop
  | .init _ _ _ _ _ _ => w.getLsbD 0 = false
  | .setgain _ => w.extractLsb' 8 20 = 0#20
  | .setchan _ => w.extractLsb' 1 27 = 0#27
  | .getgain | .getchan | .rdy | .rdraw | .pwrdn | .pwrup => w.extractLsb' 0 28 = 0#28

/-- The word `w` has the op of `i` and the reserved bits of `i`'s format 0: it is `i` but for the operands. -/
structure FitsFormat (w : Word) (i : Instr) : Prop where
  op : opField w = opcodeOf i
  reserved : ReservedZero w i

/-- The mnemonic alone fixes the format (R104). -/
theorem FitsFormat.of_mnemonic_eq {w : Word} {i j : Instr} (h : FitsFormat w i) (hm : i.mnemonic = j.mnemonic) :
    FitsFormat w j := by
  obtain ⟨hop, hres⟩ := h
  cases i <;> cases j <;> simp [Instr.mnemonic] at hm <;> exact ⟨hop, hres⟩

@[simp] theorem unlessReserved_eq_command {reservedZero : Bool} {i j : Instr} :
    unlessReserved reservedZero i = .command j ↔ reservedZero = true ∧ i = j := by
  cases reservedZero <;> simp [unlessReserved]

/-- A word that decodes to a command fits the command's format (R103). -/
theorem fitsFormat_of_decode {w : Word} {i : Instr} (h : decode w = .command i) : FitsFormat w i := by
  unfold decode at h
  split at h
  case h_10 => cases h
  all_goals
    next hop =>
      obtain ⟨hres, rfl⟩ := unlessReserved_eq_command.mp h
      exact ⟨BitVec.eq_of_toNat_eq hop, by simpa [ReservedZero] using hres⟩

/-- A word that fits a command's format decodes to that command, with the operands it holds (R103). -/
theorem decode_of_fitsFormat {w : Word} {i : Instr} (h : FitsFormat w i) :
    ∃ j, decode w = .command j ∧ j.mnemonic = i.mnemonic := by
  obtain ⟨hop, hres⟩ := h
  cases i <;> simp [ReservedZero] at hres <;> simp [decode, hop, opcodeOf, Instr.mnemonic, hres]

/-- A word decodes to a command exactly when it fits some command's format (R103). -/
theorem exists_decode_iff_fitsFormat {w : Word} : (∃ i, decode w = .command i) ↔ ∃ i, FitsFormat w i := by
  constructor
  · rintro ⟨i, h⟩
    exact ⟨i, fitsFormat_of_decode h⟩
  · rintro ⟨i, h⟩
    obtain ⟨j, hj, -⟩ := decode_of_fitsFormat h
    exact ⟨j, hj⟩

/-- Ops 0x1 to 0x9 are the ops that have a command (R95, R104). -/
theorem exists_opcodeOf_eq {w : Word} (h : ¬ opWithoutCommand w) : ∃ i, opField w = opcodeOf i := by
  obtain ⟨hpos, hlt⟩ : 0 < (opField w).toNat ∧ (opField w).toNat < 10 := by
    simpa [opWithoutCommand, Nat.pos_iff_ne_zero] using h
  interval_cases hop : (opField w).toNat
  · exact ⟨.init 0 0 0 .a .msbFirst .msbFirst, BitVec.eq_of_toNat_eq hop⟩
  · exact ⟨.setgain 0, BitVec.eq_of_toNat_eq hop⟩
  · exact ⟨.getgain, BitVec.eq_of_toNat_eq hop⟩
  · exact ⟨.setchan .a, BitVec.eq_of_toNat_eq hop⟩
  · exact ⟨.getchan, BitVec.eq_of_toNat_eq hop⟩
  · exact ⟨.rdy, BitVec.eq_of_toNat_eq hop⟩
  · exact ⟨.rdraw, BitVec.eq_of_toNat_eq hop⟩
  · exact ⟨.pwrdn, BitVec.eq_of_toNat_eq hop⟩
  · exact ⟨.pwrup, BitVec.eq_of_toNat_eq hop⟩

/-- The words that fit a format are those with no defect of R105. -/
theorem exists_fitsFormat_iff {w : Word} : (∃ i, FitsFormat w i) ↔ ¬ (opWithoutCommand w ∨ reservedBitSet w) := by
  constructor
  · rintro ⟨i, hop, hres⟩
    cases i <;> simp_all [opWithoutCommand, reservedBitSet, opcodeOf, ReservedZero]
  · intro h
    obtain ⟨hcmd, hres⟩ := not_or.mp h
    obtain ⟨i, hop⟩ := exists_opcodeOf_eq hcmd
    refine ⟨i, hop, ?_⟩
    cases i <;> simpa [reservedBitSet, hop, opcodeOf, ReservedZero] using hres

@[simp] theorem getElem_placeAt {n : Nat} (lo : Nat) (v : BitVec n) (j : Nat) (hj : j < 32) :
    (placeAt lo v)[j] = (decide (lo ≤ j) && v.getLsbD (j - lo)) := by
  by_cases hlo : lo ≤ j <;> simp [placeAt, hlo]

/-- Masking with `n` ones from bit `lo` on keeps the field that lies there. -/
theorem and_placeAt_allOnes (w : Word) (lo n : Nat) :
    w &&& placeAt lo (BitVec.allOnes n) = placeAt lo (w.extractLsb' lo n) := by
  refine BitVec.eq_of_getElem_eq fun j hj => ?_
  by_cases hlo : lo ≤ j
  · simp [hlo, hj, Bool.and_comm]
  · simp [hlo]

/-- A field below the op's bits shows in the word unless it is 0. -/
theorem placeAt_or_eq_placeAt_iff {lo n : Nat} (hfit : lo + n ≤ 28) {a c : BitVec 4} {b : BitVec n} :
    placeAt 28 a ||| placeAt lo b = placeAt 28 c ↔ a = c ∧ b = 0#n := by
  constructor
  · intro h
    have hbit (j : Nat) (hj : j < 32) :
        (decide (28 ≤ j) && a.getLsbD (j - 28) || decide (lo ≤ j) && b.getLsbD (j - lo)) =
          (decide (28 ≤ j) && c.getLsbD (j - 28)) := by
      simpa [hj] using congrArg (·.getLsbD j) h
    constructor
    · refine BitVec.eq_of_getLsbD_eq fun j hj => ?_
      have habove : b.getLsbD (28 + j - lo) = false := BitVec.getLsbD_of_ge _ _ (by omega)
      simpa only [Nat.le_add_right, Nat.add_sub_cancel_left, habove, decide_true, Bool.true_and, Bool.and_false,
        Bool.or_false] using hbit (28 + j) (by omega)
    · refine BitVec.eq_of_getLsbD_eq fun j hj => ?_
      simpa [show ¬ 28 ≤ lo + j by omega] using hbit (lo + j) (by omega)
  · rintro ⟨rfl, rfl⟩
    simp [placeAt]

/-- Masking with the op's bits and the `n` bits from `lo` on tells whether the op is `op` and those bits are 0 (R104). -/
theorem and_mask_eq_iff {lo n : Nat} (hfit : lo + n ≤ 28) (w : Word) (op : BitVec 4) :
    w &&& (placeAt 28 (BitVec.allOnes 4) ||| placeAt lo (BitVec.allOnes n)) = placeAt 28 op ↔
      opField w = op ∧ w.extractLsb' lo n = 0#n := by
  rw [BitVec.and_or_distrib_left, and_placeAt_allOnes, and_placeAt_allOnes, placeAt_or_eq_placeAt_iff hfit, opField]

/-- Match and mask of a command whose reserved bits are the `n` bits from `lo` on (R104). -/
theorem and_mask_eq_iff_fitsFormat {lo n : Nat} {w mask value : Word} {i : Instr} (hfit : lo + n ≤ 28)
    (hmask : mask = placeAt 28 (BitVec.allOnes 4) ||| placeAt lo (BitVec.allOnes n))
    (hvalue : value = placeAt 28 (opcodeOf i)) (hreserved : ReservedZero w i ↔ w.extractLsb' lo n = 0#n) :
    w &&& mask = value ↔ FitsFormat w i := by
  rw [hmask, hvalue, and_mask_eq_iff hfit, ← hreserved]
  exact ⟨fun ⟨hop, hres⟩ => ⟨hop, hres⟩, fun ⟨hop, hres⟩ => ⟨hop, hres⟩⟩

/-- INIT's one reserved bit as a field (R96). -/
theorem getLsbD_zero_eq_false_iff (w : Word) : w.getLsbD 0 = false ↔ w.extractLsb' 0 1 = 0#1 := by
  constructor
  · intro h
    refine BitVec.eq_of_getLsbD_eq fun j hj => ?_
    obtain rfl : j = 0 := by omega
    simpa using h
  · intro h
    simpa using congrArg (·.getLsbD 0) h

/-- Every row of the opcode map accepts the words that fit its command's format (R104). -/
theorem exists_row_command {r : OpcodeRow} (hr : r ∈ opcodeRows) :
    ∃ i : Instr, i.mnemonic = r.mnemonic ∧ ∀ w : Word, w &&& r.mask = r.value ↔ FitsFormat w i := by
  simp only [opcodeRows, List.mem_cons, List.not_mem_nil, or_false] at hr
  obtain rfl | rfl | rfl | rfl | rfl | rfl | rfl | rfl | rfl := hr
  · exact ⟨.init 0 0 0 .a .msbFirst .msbFirst, rfl, fun w =>
      and_mask_eq_iff_fitsFormat (by decide) (by decide) (by decide) (getLsbD_zero_eq_false_iff w)⟩
  · exact ⟨.setgain 0, rfl, fun _ =>
      and_mask_eq_iff_fitsFormat (lo := 8) (by decide) (by decide) (by decide) .rfl⟩
  · exact ⟨.getgain, rfl, fun _ =>
      and_mask_eq_iff_fitsFormat (lo := 0) (by decide) (by decide) (by decide) .rfl⟩
  · exact ⟨.setchan .a, rfl, fun _ =>
      and_mask_eq_iff_fitsFormat (lo := 1) (by decide) (by decide) (by decide) .rfl⟩
  · exact ⟨.getchan, rfl, fun _ =>
      and_mask_eq_iff_fitsFormat (lo := 0) (by decide) (by decide) (by decide) .rfl⟩
  · exact ⟨.rdy, rfl, fun _ =>
      and_mask_eq_iff_fitsFormat (lo := 0) (by decide) (by decide) (by decide) .rfl⟩
  · exact ⟨.rdraw, rfl, fun _ =>
      and_mask_eq_iff_fitsFormat (lo := 0) (by decide) (by decide) (by decide) .rfl⟩
  · exact ⟨.pwrdn, rfl, fun _ =>
      and_mask_eq_iff_fitsFormat (lo := 0) (by decide) (by decide) (by decide) .rfl⟩
  · exact ⟨.pwrup, rfl, fun _ =>
      and_mask_eq_iff_fitsFormat (lo := 0) (by decide) (by decide) (by decide) .rfl⟩

/-- Settles O3: both sides say that the word fits the row's format. -/
theorem opcodeMapAgreesWithDecoder : Obligations.OpcodeMapAgreesWithDecoder := by
  unfold Obligations.OpcodeMapAgreesWithDecoder
  constructor
  · intro w r hr
    obtain ⟨i, hi, hrow⟩ := exists_row_command hr
    rw [hrow, ← hi]
    constructor
    · exact decode_of_fitsFormat
    · rintro ⟨j, hj, hm⟩
      exact (fitsFormat_of_decode hj).of_mnemonic_eq hm
  · intro i
    cases i <;> simp [opcodeRows, Instr.mnemonic]

/-- A word is illegal exactly when it is no command's (R103). -/
theorem exists_illegal_iff {w : Word} : (∃ why, decode w = .illegal why) ↔ ¬ ∃ i, decode w = .command i := by
  cases decode w <;> simp

/-- Settles O4: the illegal words are those that fit no format. -/
theorem illegalWordsAreRefused : Obligations.IllegalWordsAreRefused := by
  unfold Obligations.IllegalWordsAreRefused
  have hillegal (w : Word) : (∃ why, decode w = .illegal why) ↔ opWithoutCommand w ∨ reservedBitSet w := by
    rw [exists_illegal_iff, exists_decode_iff_fitsFormat, exists_fitsFormat_iff, not_not]
  refine ⟨hillegal, .inl rfl, .inr (by decide), fun s io rest hph hin hrst hvalid hw => ?_⟩
  obtain ⟨why, hdecode⟩ := (hillegal _).mpr hw
  rw [step_accept hph hin hrst hvalid, accept_illegal hdecode]

end Sys2Proof.Proofs
end

