-- ==== Sys2Proof/Proofs/Construct.lean ====
section
/-! INIT from its word to the configured block: the operands are read back from the word (R96), acceptance loads it
(R212), and three completed pin events commit it (R213 to R215). -/

namespace Sys2Proof.Proofs

open Sys2Proof.Machine Sys2Proof.Safety

/-- INIT's clock pin is read back from its word (R96). -/
@[simp] theorem clockPinField_encode_init (p q : Pin) (g : Gain) (c : Channel) (bo yo : Order) :
    clockPinField (encode (.init p q g c bo yo)) = p := by
  unfold clockPinField encode placeAt
  ext j hj
  interval_cases j <;> simp

/-- INIT's data pin is read back from its word (R96). -/
@[simp] theorem dataPinField_encode_init (p q : Pin) (g : Gain) (c : Channel) (bo yo : Order) :
    dataPinField (encode (.init p q g c bo yo)) = q := by
  unfold dataPinField encode placeAt
  ext j hj
  interval_cases j <;> simp

/-- INIT's bit order is read back from its word (R96). -/
@[simp] theorem bitOrderField_encode_init (p q : Pin) (g : Gain) (c : Channel) (bo yo : Order) :
    bitOrderField (encode (.init p q g c bo yo)) = bo := by
  cases bo <;> simp [bitOrderField, orderOfBit, encode, placeAt, Order.code]

/-- INIT's byte order is read back from its word (R96). -/
@[simp] theorem byteOrderField_encode_init (p q : Pin) (g : Gain) (c : Channel) (bo yo : Order) :
    byteOrderField (encode (.init p q g c bo yo)) = yo := by
  cases yo <;> simp [byteOrderField, orderOfBit, encode, placeAt, Order.code]

/-- INIT's word decodes to INIT with its six operands (R96, R103). -/
theorem decode_encode_init (p q : Pin) (g : Gain) (c : Channel) (bo yo : Order) :
    decode (encode (.init p q g c bo yo)) = .command (.init p q g c bo yo) := by
  have hop : (opField (encode (.init p q g c bo yo))).toNat = 1 :=
    congrArg BitVec.toNat (Laws.OpcodeField.init p q g c bo yo)
  have hreserved : (encode (.init p q g c bo yo))[0] = false := by simp [encode, placeAt]
  simp [decode, hop, hreserved]

/-- The table's pairs pass both operand checks (R18, R238). -/
theorem gainCheck_pairCheck_of_inTable {c : Channel} {g : Gain} (h : inTable c g) :
    gainCheck g = none ∧ pairCheck c g = none := by
  rw [gainCheck_eq_none, pairCheck_eq_none, validPair_iff]
  obtain ⟨rfl, rfl⟩ | ⟨rfl, rfl⟩ | ⟨rfl, rfl⟩ := h <;> simp

/-- Acceptance of INIT by an Unconfigured block, the pair valid (R212). -/
theorem exec_init {s : State} {p q : Pin} {g : Gain} {c : Channel} {bo yo : Order} (hlife : s.life = .unconfigured)
    (hpair : inTable c g) :
    exec (.init p q g c bo yo) s =
      .next { s with rspValid := false, cmd := encode (.init p q g c bo yo), ph := .iOut } := by
  obtain ⟨hgain, hpair⟩ := gainCheck_pairCheck_of_inTable hpair
  simp only [exec, execInit, lifecycleCheck_eq_none.mpr hlife, hgain, hpair, Option.none_or, State.checked_none]
  rfl

/-- An idle Unconfigured block is offered the word of INIT, the pair valid (R212). -/
theorem step_accept_init {s : State} {io : PortSample} {rest : List PortSample} {p q : Pin} {g : Gain} {c : Channel}
    {bo yo : Order} (hph : s.ph = .idle) (hin : s.inputs = io :: rest) (hrst : io.rst = false)
    (hvalid : io.cmdValid = true) (hword : io.cmdWord = encode (.init p q g c bo yo)) (hlife : s.life = .unconfigured)
    (hpair : inTable c g) :
    step s = .next
      { s with inputs := rest, rspValid := false, cmd := encode (.init p q g c bo yo), ph := .iOut } := by
  rw [step_accept hph hin hrst hvalid, hword, accept_command (decode_encode_init p q g c bo yo)]
  exact exec_init hlife hpair

/-- INIT's three pin events, all completed, and its commit (R213 to R215). -/
theorem runFor_three_of_iOut {s : State} {io1 io2 io3 : PortSample} {rest : List PortSample} (hph : s.ph = .iOut)
    (hin : s.inputs = io1 :: io2 :: io3 :: rest) (h1 : smooth io1 = true) (h2 : smooth io2 = true)
    (h3 : smooth io3 = true) :
    runFor 3 s = .next (answered 0#4 0#32
      { s with
        inputs := rest
        trace := s.trace ++
          [.cfgOut (clockPinField s.cmd), .cfgIn (dataPinField s.cmd), .write (clockPinField s.cmd) false]
        life := .configured, clkpin := clockPinField s.cmd, datpin := dataPinField s.cmd, gain := initGainField s.cmd
        chan := initChannelField s.cmd, bitord := bitOrderField s.cmd, byteord := byteOrderField s.cmd
        pwr := .active, sck := false }) := by
  rw [runFor_succ_next (step_iOut hph hin h1), runFor_succ_next (step_iIn rfl rfl h2),
    runFor_succ_next (step_iWr rfl rfl h3)]
  simp [runFor_zero, answered]

/-- Settles O23: the reset leaves the block Unconfigured and idle, the word is accepted as INIT, and its three events
commit the operands. -/
theorem constructFromAnyState : Obligations.ConstructFromAnyState := by
  unfold Obligations.ConstructFromAnyState
  intro s p q g c bo yo io0 io1 io2 io3 io4 rest hin hreset hrst hvalid hword hpair h2 h3 h4
  rw [runFor_succ_next (step_reset hin hreset),
    runFor_succ_next (step_accept_init rfl rfl hrst hvalid hword rfl hpair), runFor_three_of_iOut rfl rfl h2 h3 h4]
  exact ⟨_, rfl, by simp [answered, State.resetBlock_eq, State.reset]⟩

end Sys2Proof.Proofs
end

