-- ==== Sys2Proof/Proofs/FrameStart.lean ====
section
/-! How a frame's first pulse comes about: acceptance never starts one, and of the phases only POLL and SMP lead to CK_HI
(R124, R190, R217, R220). -/

namespace Sys2Proof.Proofs

open Sys2Proof.Machine Sys2Proof.Safety

/-- Acceptance starts no pulse: a frame read starts with POLL (R212, R216). -/
theorem accepted_ph_ne_ckHi {w : Word} {s t : State} (h : Accepted w s t) : t.ph ≠ .ckHi := by
  cases h <;> simp

/-- CK_HI follows a poll that read low (R217), or a bit slot before the last (R220). -/
theorem phaseDone_ckHi {io : PortSample} {s t : State} (h : PhaseDone io s t) (ht : t.ph = .ckHi) :
    s.ph = .poll ∧ io.dout = false ∧ t.trace = s.trace ++ [.read s.datpin false] ∨ s.ph = .smp := by
  cases h with
  | poll hph hok =>
    have hlow : io.dout = false := by simpa [dataReady] using ht
    exact .inl ⟨hph, hlow, by simp [hlow]⟩
  | nextSlot _ hph => exact .inr hph
  | _ => simp at ht

/-- A reset, an idle step and an acceptance do not lead to CK_HI, so the step that does is a busy phase's (R210). -/
theorem phaseDone_of_step_ckHi {s t : State} (h : step s = .next t) (ht : t.ph = .ckHi) :
    PhaseDone s.ports s.advance t := by
  obtain ⟨-, he⟩ | ⟨-, hidle, -, he⟩ | ⟨-, -, -, he⟩ | ⟨-, hbusy, he⟩ := step_cases s <;> rw [he] at h
  · cases h
    cases ht
  · cases h
    simp [hidle] at ht
  · exact absurd ht (accepted_ph_ne_ckHi (accepted_of_accept h))
  · exact phaseDone_of_phaseStep (by simpa using hbusy) h

/-- Settles O33: of the phases that lead to CK_HI only POLL is outside a bit slot. -/
theorem frameStartsAfterALowPoll : Obligations.FrameStartsAfterALowPoll := by
  unfold Obligations.FrameStartsAfterALowPoll
  intro s t h hsmp ht
  obtain hpoll | hslot := phaseDone_ckHi (phaseDone_of_step_ckHi h ht) ht
  · simpa using hpoll
  · exact absurd (by simpa using hslot) hsmp

end Sys2Proof.Proofs
end

