-- ==== Sys2Proof/Proofs/ByteAssembly.lean ====
section
/-! The data path's words as numbers (R141, R142, R147): every byte step and every packing joins bits that do not overlap,
so its `|||` is a sum. -/

namespace Sys2Proof.Proofs

open Sys2Proof.Machine

/-- A word shifted left by `k` leaves its low `k` bits free for a value that fits them. -/
theorem toNat_shiftLeft_or {n k : Nat} (x y : BitVec n) (hy : y.toNat < 2 ^ k) :
    (x <<< k ||| y).toNat = x.toNat * 2 ^ k % 2 ^ n + y.toNat := by
  have hdisjoint : x <<< k &&& y = 0#n := by
    ext i hi
    by_cases hk : i < k
    · simp [hk]
    · have hbit : y.toNat.testBit i = false :=
        Nat.testBit_lt_two_pow (hy.trans_le (Nat.pow_le_pow_right two_pos (not_lt.mp hk)))
      simp [BitVec.getElem_eq_testBit_toNat, hbit]
  rw [← BitVec.add_eq_or_of_and_eq_zero _ _ hdisjoint, BitVec.toNat_add_of_and_eq_zero hdisjoint,
    BitVec.toNat_shiftLeft, Nat.shiftLeft_eq]

@[simp] theorem toNat_levelByte (b : Level) : (levelByte b).toNat = b.toNat := by
  cases b <;> rfl

/-- R141: the bit comes in at the bottom, and bit 7 is shifted out. -/
theorem toNat_msbStep (acc : Byte) (b : Level) : (msbStep acc b).toNat = (2 * acc.toNat + b.toNat) % 256 := by
  have hb : b.toNat < 2 := b.toNat_lt
  rw [msbStep, toNat_shiftLeft_or _ _ (by simpa using hb), toNat_levelByte]
  omega

/-- R142: the bit comes in at the top, above the seven bits that stay. -/
theorem toNat_lsbStep (acc : Byte) (b : Level) : (lsbStep acc b).toNat = acc.toNat / 2 + 128 * b.toNat := by
  have hb : b.toNat < 2 := b.toNat_lt
  have hacc : (acc >>> 1).toNat = acc.toNat / 2 := BitVec.toNat_ushiftRight acc 1
  rw [lsbStep, BitVec.or_comm, toNat_shiftLeft_or _ _ (by omega), toNat_levelByte, hacc]
  omega

/-- R147: byte P0 above P1 above P2. -/
theorem toNat_packBytes (p0 p1 p2 : Byte) :
    (packBytes p0 p1 p2).toNat = 65536 * p0.toNat + 256 * p1.toNat + p2.toNat := by
  have hwide (p : Byte) : (p.setWidth 24).toNat = p.toNat := BitVec.toNat_setWidth_of_le (by decide)
  have hlow : (p1.setWidth 24 <<< 8 ||| p2.setWidth 24).toNat = 256 * p1.toNat + p2.toNat := by
    rw [toNat_shiftLeft_or _ _ (by rw [hwide]; omega), hwide, hwide]
    omega
  rw [packBytes, BitVec.or_assoc, toNat_shiftLeft_or _ _ (by omega), hlow, hwide]
  omega

section EightSteps
variable (b0 b1 b2 b3 b4 b5 b6 b7 : Level)

/-- R141: eight steps from 0 lose no bit, and the first is the most significant. -/
theorem toNat_foldl_msbStep_eight : ([b0, b1, b2, b3, b4, b5, b6, b7].foldl msbStep 0#8).toNat =
    128 * b0.toNat + 64 * b1.toNat + 32 * b2.toNat + 16 * b3.toNat + 8 * b4.toNat + 4 * b5.toNat + 2 * b6.toNat +
      b7.toNat := by
  have h0 := b0.toNat_lt; have h1 := b1.toNat_lt; have h2 := b2.toNat_lt; have h3 := b3.toNat_lt
  have h4 := b4.toNat_lt; have h5 := b5.toNat_lt; have h6 := b6.toNat_lt; have h7 := b7.toNat_lt
  simp only [List.foldl_cons, List.foldl_nil, toNat_msbStep, BitVec.toNat_ofNat]
  omega

/-- R142: eight steps from 0 shift the first bit down to bit 0. -/
theorem toNat_foldl_lsbStep_eight : ([b0, b1, b2, b3, b4, b5, b6, b7].foldl lsbStep 0#8).toNat =
    b0.toNat + 2 * b1.toNat + 4 * b2.toNat + 8 * b3.toNat + 16 * b4.toNat + 32 * b5.toNat + 64 * b6.toNat +
      128 * b7.toNat := by
  simp only [List.foldl_cons, List.foldl_nil, toNat_lsbStep, BitVec.toNat_ofNat]
  omega

end EightSteps

/-- Settles O15: `pack` hands the bytes to `packBytes` in the order read, or reversed. -/
theorem packPlacesBytes : Obligations.PackPlacesBytes := by
  unfold Obligations.PackPlacesBytes
  intro b0 b1 b2
  exact ⟨toNat_packBytes b0 b1 b2, toNat_packBytes b2 b1 b0, by decide, by decide⟩

/-- Settles O14: the closed forms follow from the two steps' arithmetic. -/
theorem byteAssemblyOrders : Obligations.ByteAssemblyOrders := by
  unfold Obligations.ByteAssemblyOrders
  refine ⟨toNat_msbStep, toNat_lsbStep, ?eightSteps, by decide, by decide, by decide, by decide⟩
  case eightSteps =>
    intro b0 b1 b2 b3 b4 b5 b6 b7
    exact ⟨toNat_foldl_msbStep_eight b0 b1 b2 b3 b4 b5 b6 b7, toNat_foldl_lsbStep_eight b0 b1 b2 b3 b4 b5 b6 b7⟩

end Sys2Proof.Proofs
end

