-- ==== Sys2Proof/Proofs/FrameDecode.lean ====
section
/-! A frame's decoded value is its two's-complement reading (R160 to R162): the formula's two masks take the sign bit
and the 23 bits below it, so `signedValue` is `BitVec.toInt`. -/

namespace Sys2Proof.Proofs

open Sys2Proof.Machine

theorem toNat_and_signBit (f : Frame) : (f &&& 0x800000#24).toNat = (f.getLsbD 23).toNat * 0x800000 :=
  Nat.and_two_pow f.toNat 23

theorem toNat_and_belowSignBit (f : Frame) : (f &&& 0x7FFFFF#24).toNat = f.toNat % 0x800000 :=
  Nat.and_two_pow_sub_one_eq_mod f.toNat 23

theorem frame_getLsbD_23_eq_decide (f : Frame) : f.getLsbD 23 = decide (0x800000 ≤ f.toNat) := by
  rw [← BitVec.msb_eq_getLsbD_last, BitVec.msb_eq_decide]

/-- R161's equivalent form: the sign bit weighs -2^23 in place of 2^23. -/
theorem signedValue_eq_ite (f : Frame) :
    signedValue f = if f.getLsbD 23 then (f.toNat : Int) - 0x1000000 else (f.toNat : Int) := by
  have hlt : f.toNat < 0x1000000 := f.isLt
  rw [signedValue, toNat_and_signBit, toNat_and_belowSignBit, frame_getLsbD_23_eq_decide]
  by_cases hsign : 0x800000 ≤ f.toNat
  · simp [hsign]
    omega
  · simp [hsign]
    omega

theorem signedValue_eq_toInt (f : Frame) : signedValue f = f.toInt := by
  rw [signedValue_eq_ite, BitVec.toInt_eq_msb_cond, BitVec.msb_eq_getLsbD_last]
  rfl

/-- R161: the SAMPLE of R160 is that of R221. -/
theorem decodeFrame_eq_signExtend (f : Frame) : decodeFrame f = f.signExtend 32 := by
  rw [decodeFrame, signedValue_eq_toInt, BitVec.signExtend]

/-- 32 bits hold every frame's value. -/
theorem toInt_decodeFrame (f : Frame) : (decodeFrame f).toInt = signedValue f := by
  rw [decodeFrame_eq_signExtend, BitVec.toInt_signExtend_of_le (by decide), signedValue_eq_toInt]

theorem signedValue_bounds (f : Frame) : -8388608 ≤ signedValue f ∧ signedValue f ≤ 8388607 := by
  rw [signedValue_eq_toInt]
  exact ⟨f.le_toInt, Int.le_of_lt_add_one f.toInt_lt⟩

theorem signedValue_injective : Function.Injective signedValue := by
  intro f g h
  rw [signedValue_eq_toInt, signedValue_eq_toInt] at h
  exact BitVec.eq_of_toInt_eq h

/-- A number in range is the value of its own 24-bit pattern. -/
theorem signedValue_ofInt {n : Int} (hlow : -8388608 ≤ n) (hhigh : n ≤ 8388607) :
    signedValue (BitVec.ofInt 24 n) = n := by
  rw [signedValue_eq_toInt]
  exact BitVec.toInt_ofInt_eq_self (by decide) hlow (Int.lt_add_one_of_le hhigh)

/-- Settles O16: each part is the library's fact about `BitVec.toInt`, which `signedValue` is. -/
theorem decodeIsTwosComplement : Obligations.DecodeIsTwosComplement := by
  unfold Obligations.DecodeIsTwosComplement
  refine ⟨?everyFrame, fun _ _ h => signedValue_injective h,
    fun n hlow hhigh => ⟨BitVec.ofInt 24 n, signedValue_ofInt hlow hhigh⟩, by decide, by decide, by decide, by decide⟩
  case everyFrame =>
    intro f
    exact ⟨rfl, signedValue_eq_ite f, decodeFrame_eq_signExtend f, toInt_decodeFrame f, signedValue_bounds f⟩

end Sys2Proof.Proofs
end

