-- ==== Sys2Proof/Proofs/ConfigCommands.lean ====
section
/-! The configuration commands from acceptance to response (R170 to R174): the wrong lifecycle state, a pair outside the
table, and completion, one rule each; then that no command moves a Configured block between the channels (R176). -/

namespace Sys2Proof.Proofs

open Sys2Proof.Machine Sys2Proof.Safety

/-- `valid` is membership in the pulse table (R18, R93). -/
theorem validPair_iff_inTable {c : Channel} {g : Gain} : validPair c g = true ↔ inTable c g := by
  rw [validPair_iff]
  constructor
  · rintro (⟨rfl, rfl | rfl⟩ | ⟨rfl, rfl⟩) <;> decide
  · rintro (⟨rfl, rfl⟩ | ⟨rfl, rfl⟩ | ⟨rfl, rfl⟩) <;> decide

theorem pairCheck_of_not_inTable {c : Channel} {g : Gain} (h : ¬ inTable c g) : pairCheck c g = some .config :=
  if_neg (mt validPair_iff_inTable.mp h)

/-- Whichever of the two operand checks fails, the class is ConfigurationError (R232, R238). -/
theorem gainCheck_or_pairCheck_of_not_inTable {c : Channel} {g : Gain} (h : ¬ inTable c g) :
    (gainCheck g).or (pairCheck c g) = some .config := by
  rw [pairCheck_of_not_inTable h]
  unfold gainCheck
  split <;> rfl

/-- The table holds gains of GAIN_SET only (R24, R93). -/
theorem not_inTable_of_gain {c : Channel} {g : Gain} (h : g ≠ 32#8 ∧ g ≠ 64#8 ∧ g ≠ 128#8) : ¬ inTable c g := by
  obtain ⟨h32, h64, h128⟩ := h
  rintro (⟨-, hg⟩ | ⟨-, hg⟩ | ⟨-, hg⟩)
  · exact h128 hg
  · exact h32 hg
  · exact h64 hg

/-- A command in the wrong lifecycle state is answered ERR_STATE, and nothing else changes (R235, R239). -/
theorem exec_of_life_ne {i : Instr} {s : State} (h : s.life ≠ lifeWanted i) :
    exec i s = .next (answered 3#4 0#32 s) := by
  have hcheck : lifecycleCheck (lifeWanted i) s = some .state := if_neg h
  cases i <;> rw [lifeWanted] at hcheck <;>
    simp only [exec, execInit, execSetgain, execGetgain, execSetchan, execGetchan, execRdy, execRdraw, execPwrdn,
      execPwrup, hcheck, Option.some_or, State.checked_some] <;> rfl

/-- R235 a: a command of the Configured block meets an Unconfigured one. -/
theorem exec_of_unconfigured {i : Instr} {s : State} (hwant : lifeWanted i = .configured)
    (hlife : s.life = .unconfigured) : exec i s = .next (answered 3#4 0#32 s) :=
  exec_of_life_ne (by simp [hwant, hlife])

section Configured

variable {s : State} (hlife : s.life = .configured)

include hlife

/-- R171. -/
theorem exec_setgain_of_inTable {g : Gain} (hpair : inTable s.chan g) :
    exec (.setgain g) s = .next (answered 0#4 0#32 { s with gain := g }) := by
  obtain ⟨hgain, hpair⟩ := gainCheck_pairCheck_of_inTable hpair
  simp only [exec, execSetgain, lifecycleCheck_eq_none.mpr hlife, hgain, hpair, Option.none_or, State.checked_none]
  rfl

/-- R171, R232. -/
theorem exec_setgain_of_not_inTable {g : Gain} (hpair : ¬ inTable s.chan g) :
    exec (.setgain g) s = .next (answered 1#4 0#32 s) := by
  simp only [exec, execSetgain, lifecycleCheck_eq_none.mpr hlife, gainCheck_or_pairCheck_of_not_inTable hpair,
    Option.none_or, State.checked_some]
  rfl

/-- R172. -/
theorem exec_getgain : exec .getgain s = .next (answered 0#4 (s.gain.setWidth 32) s) := by
  simp only [exec, execGetgain, lifecycleCheck_eq_none.mpr hlife, State.checked_none]
  rfl

/-- R173. -/
theorem exec_setchan_of_inTable {c : Channel} (hpair : inTable c s.gain) :
    exec (.setchan c) s = .next (answered 0#4 0#32 { s with chan := c }) := by
  obtain ⟨-, hpair⟩ := gainCheck_pairCheck_of_inTable hpair
  simp only [exec, execSetchan, lifecycleCheck_eq_none.mpr hlife, hpair, Option.none_or, State.checked_none]
  rfl

/-- R173, R232. -/
theorem exec_setchan_of_not_inTable {c : Channel} (hpair : ¬ inTable c s.gain) :
    exec (.setchan c) s = .next (answered 1#4 0#32 s) := by
  simp only [exec, execSetchan, lifecycleCheck_eq_none.mpr hlife, pairCheck_of_not_inTable hpair, Option.none_or,
    State.checked_some]
  rfl

/-- R174. -/
theorem exec_getchan : exec .getchan s = .next (answered 0#4 (s.chan.code.setWidth 32) s) := by
  simp only [exec, execGetchan, lifecycleCheck_eq_none.mpr hlife, State.checked_none]
  rfl

end Configured

/-- Settles O22: acceptance loads INIT's word, and the three events commit the operands read back from it. -/
theorem initConfigures : Obligations.InitConfigures := by
  unfold Obligations.InitConfigures
  intro s p q g c bo yo io1 io2 io3 rest hlife hpair hin h1 h2 h3
  refine ⟨exec_init hlife hpair, ?_⟩
  rw [runFor_three_of_iOut (s := { s with rspValid := false, cmd := encode (.init p q g c bo yo), ph := .iOut }) rfl hin
    h1 h2 h3]
  simp [answered]

/-- Settles O18: completion, the operand checks, the lifecycle check. A gain outside the set is in no pair. -/
theorem setgainSetsTheGain : Obligations.SetgainSetsTheGain := by
  unfold Obligations.SetgainSetsTheGain
  intro g s
  exact ⟨fun hlife hpair => exec_setgain_of_inTable hlife hpair,
    fun hlife hbad => exec_setgain_of_not_inTable hlife (hbad.elim not_inTable_of_gain id),
    fun hlife => exec_of_unconfigured rfl hlife⟩

/-- Settles O19. -/
theorem getgainAnswersTheGain : Obligations.GetgainAnswersTheGain := by
  unfold Obligations.GetgainAnswersTheGain
  exact fun s => ⟨fun hlife => exec_getgain hlife, fun hlife => exec_of_unconfigured rfl hlife⟩

/-- Settles O20: completion, the pair check, the lifecycle check. -/
theorem setchanSetsTheChannel : Obligations.SetchanSetsTheChannel := by
  unfold Obligations.SetchanSetsTheChannel
  intro c s
  exact ⟨fun hlife hpair => exec_setchan_of_inTable hlife hpair,
    fun hlife hpair => exec_setchan_of_not_inTable hlife hpair, fun hlife => exec_of_unconfigured rfl hlife⟩

/-- Settles O21: the answer is the channel's code, 0 for A and 1 for B. -/
theorem getchanAnswersTheChannel : Obligations.GetchanAnswersTheChannel := by
  unfold Obligations.GetchanAnswersTheChannel
  intro s
  refine ⟨fun hlife hchan => ?a, fun hlife hchan => ?b, fun hlife => exec_of_unconfigured rfl hlife⟩
  case a =>
    rw [exec_getchan hlife, hchan]
    rfl
  case b =>
    rw [exec_getchan hlife, hchan]
    rfl

/-- Settles O24: SETGAIN leaves the block Configured in both outcomes, so GETGAIN answers GAIN as it then stands. -/
theorem setgainThenGetgain : Obligations.SetgainThenGetgain := by
  unfold Obligations.SetgainThenGetgain
  intro s g hlife
  by_cases hpair : inTable s.chan g
  · exact ⟨_, _, exec_setgain_of_inTable hlife hpair, exec_getgain hlife, rfl, fun _ => rfl, absurd hpair⟩
  · exact ⟨_, _, exec_setgain_of_not_inTable hlife hpair, exec_getgain hlife, rfl, fun h => absurd h hpair, fun _ => rfl⟩

/-- No gain is valid on both channels (R93). -/
theorem channel_eq_of_validPair {c d : Channel} {g : Gain} (hc : validPair c g = true) (hd : validPair d g = true) :
    c = d := by
  obtain ⟨rfl, hg⟩ | ⟨rfl, rfl⟩ := validPair_iff.mp hc
  · cases d with
    | a => rfl
    | b =>
      obtain rfl : g = 32#8 := by simpa [validPair_iff] using hd
      simp at hg
  · cases d with
    | a => exact absurd hd (by decide)
    | b => rfl

/-- Settles O48: the only step that could change CHAN is a SETCHAN, which leaves LIFE and GAIN; the invariant then gives
one gain that is valid on both channels. -/
theorem channelStaysUntilReset : Obligations.ChannelStaysUntilReset := by
  unfold Obligations.ChannelStaysUntilReset
  intro s t hinv hlife hr h
  have hst := stepped_of_step h hr
  have hiw : s.ph ≠ .iWr := fun hph => not_initialising_of_configured hinv hlife (.inr (.inr hph))
  obtain hchan | hph | ⟨-, hword⟩ := stepped_chan hst
  · exact hchan
  · exact absurd hph hiw
  · have hgain : t.gain = s.gain := by simpa [hiw, hword] using stepped_gain hst
    have hlife' : t.life = .configured := by simpa [hiw, hlife] using stepped_life hst
    have hpair : validPair t.chan s.gain = true := hgain ▸ (stepKeepsTheInvariant s t hinv h).pairValid hlife'
    exact channel_eq_of_validPair hpair (hinv.pairValid hlife)

end Sys2Proof.Proofs
end

