-- ==== Sys2Proof/Proofs/FrameAssembly.lean ====
section
/-! What a whole frame's sampled bits leave in ACC, BYTES and PCNT, and where each of them stands in the packed FRAME
(R140 to R147, R94): eight slots fill a byte from its first bit on, three bytes fill BYTES, idle slots only count. -/

namespace Sys2Proof.Proofs

open Sys2Proof.Machine

/-- Bit slots as the data path sees them: each sampled bit is assembled or discarded, and counted (R220). -/
def assembleBits (bits : List Level) (s : State) : State :=
  bits.foldl (fun t b => (t.assembleBit b).countPulse) s

/-- The byte of data slots `8 * j` to `8 * j + 7` (R140, R144). -/
def slotByte (bitOrder : Order) (bits : List Level) (j : Nat) : Byte :=
  ((bits.drop (8 * j)).take 8).foldl (orderStep bitOrder) 0#8

/-- BYTES after the 24 data slots (R144). -/
def slotBytes (bitOrder : Order) (bits : List Level) : ByteSeq :=
  ⟨slotByte bitOrder bits 0, slotByte bitOrder bits 1, slotByte bitOrder bits 2⟩

/-- BYTES[j] (R34). -/
def byteAt (bs : ByteSeq) : Nat → Byte
  | 0 => bs.b0
  | 1 => bs.b1
  | _ => bs.b2

/-- The bit of a byte that the byte's bit `i`, in the order sampled, becomes (R141, R142). -/
def bitInByte : Order → Nat → Nat
  | .msbFirst, i => 7 - i
  | .lsbFirst, i => i

/-- The lowest bit of FRAME that BYTES[j] takes (R147). -/
def byteBase : Order → Nat → Nat
  | .msbFirst, j => 16 - 8 * j
  | .lsbFirst, j => 8 * j

theorem assembleBits_cons (b : Level) (bits : List Level) (s : State) :
    assembleBits (b :: bits) s = assembleBits bits (s.assembleBit b).countPulse := rfl

theorem assembleBits_append (bits bits' : List Level) (s : State) :
    assembleBits (bits ++ bits') s = assembleBits bits' (assembleBits bits s) :=
  List.foldl_append

/-- From slot `n` to the end of its byte: the steps of the bit order build up the byte, and the last slot stores it. -/
theorem assembleBits_byte {s : State} {n : Nat} {bits : List Level} (hn : n < 24) (hpcnt : s.pcnt = BitVec.ofNat 5 n)
    (hlen : n % 8 + bits.length = 8) :
    assembleBits bits s =
      { s with
        bytes := s.bytes.set (n / 8) (bits.foldl (orderStep s.bitord) s.acc), acc := 0#8
        pcnt := BitVec.ofNat 5 (n + bits.length) } := by
  induction bits generalizing s n with
  | nil =>
    rw [List.length_nil] at hlen
    omega
  | cons b bits ih =>
    rw [List.length_cons] at hlen
    have hcount : s.pcnt.toNat = n := by rw [hpcnt, BitVec.toNat_ofNat, Nat.mod_eq_of_lt (by omega)]
    rw [assembleBits_cons]
    by_cases h7 : n % 8 = 7
    · obtain rfl : bits = [] := List.length_eq_zero_iff.mp (by omega)
      rw [assembleBit_store (by omega) (by omega), hcount]
      simp [assembleBits, State.countPulse, hpcnt, BitVec.ofNat_add]
    · rw [assembleBit_shift (by omega) (by omega),
        ih (n := n + 1) (by omega) (by simp [hpcnt, BitVec.ofNat_add]) (by omega)]
      have hbyte : (n + 1) / 8 = n / 8 := by omega
      simp [State.countPulse, hbyte, Nat.add_assoc, Nat.add_comm 1]

theorem assembleBits_wholeByte {s : State} {j : Nat} {bits : List Level} (hj : j < 3)
    (hpcnt : s.pcnt = BitVec.ofNat 5 (8 * j)) (hacc : s.acc = 0#8) (hlen : bits.length = 8) :
    assembleBits bits s =
      { s with
        bytes := s.bytes.set j (bits.foldl (orderStep s.bitord) 0#8), acc := 0#8
        pcnt := BitVec.ofNat 5 (8 * j + 8) } := by
  have hbyte : 8 * j / 8 = j := by omega
  rw [assembleBits_byte (by omega) hpcnt (by omega), hacc, hbyte, hlen]

/-- Idle slots only count (R146). -/
theorem assembleBits_idle {s : State} {n : Nat} {bits : List Level} (hn : 24 ≤ n) (hpcnt : s.pcnt = BitVec.ofNat 5 n)
    (hlen : n + bits.length < 32) :
    assembleBits bits s = { s with pcnt := BitVec.ofNat 5 (n + bits.length) } := by
  induction bits generalizing s n with
  | nil => simp [assembleBits, ← hpcnt]
  | cons b bits ih =>
    rw [List.length_cons] at hlen
    have hcount : s.pcnt.toNat = n := by rw [hpcnt, BitVec.toNat_ofNat, Nat.mod_eq_of_lt (by omega)]
    rw [assembleBits_cons, assembleBit_discard (by omega),
      ih (n := n + 1) (by omega) (by simp [hpcnt, BitVec.ofNat_add]) (by omega)]
    simp [State.countPulse, Nat.add_assoc, Nat.add_comm 1]

/-- A frame's bits are three bytes and the idle slots (R92). -/
theorem eq_three_bytes_append (bits : List Level) :
    bits = bits.take 8 ++ ((bits.drop 8).take 8 ++ ((bits.drop 16).take 8 ++ bits.drop 24)) := by
  have h16 : bits.drop 16 = (bits.drop 8).drop 8 := by rw [List.drop_drop]
  have h24 : bits.drop 24 = (bits.drop 16).drop 8 := by rw [List.drop_drop]
  rw [h24, List.take_append_drop, h16, List.take_append_drop, List.take_append_drop]

/-- A frame's slots from the first on (R144, R146): nothing of the old BYTES is left, and ACC ends as it began. -/
theorem assembleBits_frame {s : State} {bits : List Level} (hpcnt : s.pcnt = 0#5) (hacc : s.acc = 0#8)
    (hdata : 24 ≤ bits.length) (hlen : bits.length < 32) :
    assembleBits bits s =
      { s with bytes := slotBytes s.bitord bits, acc := 0#8, pcnt := BitVec.ofNat 5 bits.length } := by
  have h0 : (bits.take 8).length = 8 := by rw [List.length_take]; omega
  have h1 : ((bits.drop 8).take 8).length = 8 := by rw [List.length_take, List.length_drop]; omega
  have h2 : ((bits.drop 16).take 8).length = 8 := by rw [List.length_take, List.length_drop]; omega
  have hidle : 24 + (bits.drop 24).length = bits.length := by rw [List.length_drop]; omega
  conv_lhs => rw [eq_three_bytes_append bits]
  rw [assembleBits_append, assembleBits_append, assembleBits_append,
    assembleBits_wholeByte (j := 0) (by decide) hpcnt hacc h0, assembleBits_wholeByte (j := 1) (by decide) rfl rfl h1,
    assembleBits_wholeByte (j := 2) (by decide) rfl rfl h2,
    assembleBits_idle (n := 24) (by decide) rfl (by omega), hidle]
  simp [ByteSeq.set, slotBytes, slotByte]

@[simp] theorem getElem_levelByte (b : Level) {i : Nat} (hi : i < 8) : (levelByte b)[i] = (decide (i = 0) && b) := by
  simp [levelByte]

theorem getLsbD_msbStep_zero (acc : Byte) (b : Level) : (msbStep acc b).getLsbD 0 = b := by
  simp [msbStep]

theorem getLsbD_msbStep_succ (acc : Byte) (b : Level) {i : Nat} (hi : i + 1 < 8) :
    (msbStep acc b).getLsbD (i + 1) = acc.getLsbD i := by
  have hi' : i < 8 := by omega
  simp [msbStep, hi, hi']

theorem getLsbD_lsbStep_seven (acc : Byte) (b : Level) : (lsbStep acc b).getLsbD 7 = b := by
  simp [lsbStep]

theorem getLsbD_lsbStep_of_lt (acc : Byte) (b : Level) {i : Nat} (hi : i < 7) :
    (lsbStep acc b).getLsbD i = acc.getLsbD (i + 1) := by
  simp [lsbStep, hi, Nat.add_comm 1]

/-- R141: each step moves the bits before it one place up, so the bit sampled `i`-th stands below those before it. -/
theorem getLsbD_foldl_msbStep {bits : List Level} (acc : Byte) (hlen : bits.length ≤ 8) {i : Nat}
    (hi : i < bits.length) : (bits.foldl msbStep acc).getLsbD (bits.length - 1 - i) = bits.getD i false := by
  induction bits using List.reverseRecOn with
  | nil => cases hi
  | append_singleton bits b ih =>
    rw [List.length_append, List.length_singleton] at hlen hi ⊢
    rw [List.foldl_append, List.foldl_cons, List.foldl_nil]
    obtain hi | rfl : i < bits.length ∨ i = bits.length := by omega
    · have hplace : bits.length + 1 - 1 - i = bits.length - 1 - i + 1 := by omega
      rw [hplace, getLsbD_msbStep_succ _ _ (by omega), ih (by omega) hi, List.getD_append _ _ _ _ hi]
    · rw [Nat.add_sub_cancel, Nat.sub_self, getLsbD_msbStep_zero]
      simp

/-- R142: each step moves the bits before it one place down, so the bit sampled `i`-th stands above those before it. -/
theorem getLsbD_foldl_lsbStep {bits : List Level} (acc : Byte) (hlen : bits.length ≤ 8) {i : Nat}
    (hi : i < bits.length) : (bits.foldl lsbStep acc).getLsbD (8 - bits.length + i) = bits.getD i false := by
  induction bits using List.reverseRecOn with
  | nil => cases hi
  | append_singleton bits b ih =>
    rw [List.length_append, List.length_singleton] at hlen hi ⊢
    rw [List.foldl_append, List.foldl_cons, List.foldl_nil]
    obtain hi | rfl : i < bits.length ∨ i = bits.length := by omega
    · have hplace : 8 - (bits.length + 1) + i + 1 = 8 - bits.length + i := by omega
      rw [getLsbD_lsbStep_of_lt _ _ (by omega), hplace, ih (by omega) hi, List.getD_append _ _ _ _ hi]
    · have hplace : 8 - (bits.length + 1) + bits.length = 7 := by omega
      rw [hplace, getLsbD_lsbStep_seven]
      simp

theorem getLsbD_slotByte (bitOrder : Order) {bits : List Level} {j i : Nat} (hlen : 8 * j + 8 ≤ bits.length)
    (hi : i < 8) : (slotByte bitOrder bits j).getLsbD (bitInByte bitOrder i) = bits.getD (8 * j + i) false := by
  have height : ((bits.drop (8 * j)).take 8).length = 8 := by rw [List.length_take, List.length_drop]; omega
  have hbit : ((bits.drop (8 * j)).take 8).getD i false = bits.getD (8 * j + i) false := by
    simp [hi]
  rw [← hbit]
  cases bitOrder with
  | msbFirst =>
    simpa [slotByte, bitInByte, orderStep, height] using
      getLsbD_foldl_msbStep 0#8 height.le (hi.trans_eq height.symm)
  | lsbFirst =>
    simpa [slotByte, bitInByte, orderStep, height] using
      getLsbD_foldl_lsbStep 0#8 height.le (hi.trans_eq height.symm)

section Packed

variable (p0 p1 p2 : Byte) {i : Nat} (hi : i < 8)

include hi

theorem getLsbD_packBytes_high : (packBytes p0 p1 p2).getLsbD (16 + i) = p0.getLsbD i := by
  simp (disch := omega) [packBytes, BitVec.getLsbD_of_ge]

theorem getLsbD_packBytes_middle : (packBytes p0 p1 p2).getLsbD (8 + i) = p1.getLsbD i := by
  have h16 : 8 + i < 16 := by omega
  simp (disch := omega) [packBytes, h16, BitVec.getLsbD_of_ge]

theorem getLsbD_packBytes_low : (packBytes p0 p1 p2).getLsbD i = p2.getLsbD i := by
  have h16 : i < 16 := by omega
  simp (disch := omega) [packBytes, h16, hi]

end Packed

/-- R147: BYTES[j] stands whole in FRAME from its base on. -/
theorem getLsbD_pack (bs : ByteSeq) (byteOrder : Order) {j i : Nat} (hj : j < 3) (hi : i < 8) :
    (pack bs byteOrder).getLsbD (byteBase byteOrder j + i) = (byteAt bs j).getLsbD i := by
  cases byteOrder <;> interval_cases j <;>
    simp [pack, byteBase, byteAt, getLsbD_packBytes_high, getLsbD_packBytes_middle, getLsbD_packBytes_low, hi]

/-- R94's table: the byte's place in FRAME, and the bit's place in its byte. -/
theorem bitPosition_eq (bitOrder byteOrder : Order) (k : Nat) :
    bitPosition bitOrder byteOrder k = byteBase byteOrder (k / 8) + bitInByte bitOrder (k % 8) := by
  cases bitOrder <;> cases byteOrder <;> rfl

theorem byteAt_slotBytes (bitOrder : Order) (bits : List Level) {j : Nat} (hj : j < 3) :
    byteAt (slotBytes bitOrder bits) j = slotByte bitOrder bits j := by
  interval_cases j <;> rfl

/-- R94: the bit sampled in data slot `k` stands in FRAME where the table says. -/
theorem getLsbD_pack_slotBytes (bitOrder byteOrder : Order) {bits : List Level} (hdata : 24 ≤ bits.length) {k : Nat}
    (hk : k < 24) :
    (pack (slotBytes bitOrder bits) byteOrder).getLsbD (bitPosition bitOrder byteOrder k) = bits.getD k false := by
  have hbyte : k / 8 < 3 := by omega
  have hbit : k % 8 < 8 := by omega
  have hplace : bitInByte bitOrder (k % 8) < 8 := by cases bitOrder <;> simp only [bitInByte] <;> omega
  rw [bitPosition_eq, getLsbD_pack _ _ hbyte hplace, byteAt_slotBytes _ _ hbyte, getLsbD_slotByte _ (by omega) hbit,
    Nat.div_add_mod]

end Sys2Proof.Proofs
end

