-- ==== Sys2Proof/Proofs/FrameRead.lean ====
section
/-! A whole frame read under listed port samples, whichever command reads it (R190, R216 to R221): the polls, the bit
slots, and the state in which the frame ends; then RDRAW from its acceptance to its answer (R192). -/

namespace Sys2Proof.Proofs

open Sys2Proof.Machine Sys2Proof.Safety

section ListedSample

variable {s : State} {io : PortSample} {rest : List PortSample}

/-- R217. -/
theorem step_poll (hph : s.ph = .poll) (hin : s.inputs = io :: rest) (hio : smooth io = true) :
    step s = .next
      { s with
        inputs := rest, trace := s.trace ++ [.read s.datpin io.dout]
        ph := if dataReady io.dout then .ckHi else .poll } := by
  obtain ⟨hrst, hok⟩ := smooth_iff.mp hio
  rw [step_phase (by simp [hph]) hin hrst, phaseStep_poll io (s := { s with inputs := rest }) hph, hok]
  rfl

/-- R218. -/
theorem step_ckHi (hph : s.ph = .ckHi) (hin : s.inputs = io :: rest) (hio : smooth io = true) :
    step s = .next
      { s with inputs := rest, trace := s.trace ++ [.write s.clkpin true], sck := true, ph := .ckLo } := by
  obtain ⟨hrst, hok⟩ := smooth_iff.mp hio
  rw [step_phase (by simp [hph]) hin hrst, phaseStep_ckHi io (s := { s with inputs := rest }) hph, hok]
  rfl

/-- R219. -/
theorem step_ckLo (hph : s.ph = .ckLo) (hin : s.inputs = io :: rest) (hio : smooth io = true) :
    step s = .next
      { s with inputs := rest, trace := s.trace ++ [.write s.clkpin false], sck := false, ph := .smp } := by
  obtain ⟨hrst, hok⟩ := smooth_iff.mp hio
  rw [step_phase (by simp [hph]) hin hrst, phaseStep_ckLo io (s := { s with inputs := rest }) hph, hok]
  rfl

/-- R220. -/
theorem step_smp (hph : s.ph = .smp) (hin : s.inputs = io :: rest) (hio : smooth io = true) :
    step s = nextSlot (State.countPulse (State.assembleBit io.dout
      { s with inputs := rest, trace := s.trace ++ [.read s.datpin io.dout] })) := by
  obtain ⟨hrst, hok⟩ := smooth_iff.mp hio
  rw [step_phase (by simp [hph]) hin hrst, phaseStep_smp io (s := { s with inputs := rest }) hph, hok]
  rfl

end ListedSample

theorem runFor_one (s : State) : runFor 1 s = step s := by
  cases h : step s with
  | next t => rw [runFor_succ_next h, runFor_zero]
  | fault r => rw [runFor_succ_fault h]
  | refused r => rw [runFor_succ_refused h]

/-- A run that reaches `t` after `m` steps goes on from there. -/
theorem runFor_add_of_next {m : Nat} {s t : State} (h : runFor m s = .next t) (n : Nat) :
    runFor (m + n) s = runFor n t := by
  induction m generalizing s with
  | zero =>
    cases h
    rw [Nat.zero_add]
  | succ m ih =>
    rw [Nat.succ_add]
    cases hs : step s with
    | next u =>
      rw [runFor_succ_next hs] at h ⊢
      exact ih h
    | fault r =>
      rw [runFor_succ_fault hs] at h
      cases h
    | refused r =>
      rw [runFor_succ_refused hs] at h
      cases h

/-- Polls that read high are repeated, and the one that reads low starts the first bit slot (R190, R217). -/
theorem runFor_polls {s : State} {polls rest : List PortSample} {ready : PortSample} (hph : s.ph = .poll)
    (hin : s.inputs = polls ++ ready :: rest) (hpolls : ∀ io ∈ polls, smooth io = true ∧ io.dout = true)
    (hready : smooth ready = true) (hlow : ready.dout = false) :
    runFor (polls.length + 1) s = .next
      { s with
        inputs := rest, ph := .ckHi
        trace := s.trace ++ List.replicate polls.length (.read s.datpin true) ++ [.read s.datpin false] } := by
  induction polls generalizing s with
  | nil =>
    rw [List.length_nil, runFor_one, step_poll hph hin hready, hlow]
    simp [dataReady]
  | cons io polls ih =>
    obtain ⟨⟨hio, hhigh⟩, hpolls⟩ := List.forall_mem_cons.mp hpolls
    rw [List.length_cons, runFor_succ_next (step_poll hph hin hio), hhigh, ih rfl rfl hpolls]
    simp [List.replicate_succ]

/-- A block whose bit slots have made their pin events, the clock low again, at the point where the last sampled bit
goes to the data path (R91, R220). -/
def afterPulses (rest : List PortSample) (events : List PinEvent) (s : State) : State :=
  { s with inputs := rest, trace := s.trace ++ events, sck := false, ph := .smp }

section AfterPulses

variable (rest : List PortSample) (events : List PinEvent) (s : State)

@[simp] theorem afterPulses_inputs : (afterPulses rest events s).inputs = rest := rfl
@[simp] theorem afterPulses_clkpin : (afterPulses rest events s).clkpin = s.clkpin := rfl
@[simp] theorem afterPulses_datpin : (afterPulses rest events s).datpin = s.datpin := rfl
@[simp] theorem afterPulses_chan : (afterPulses rest events s).chan = s.chan := rfl
@[simp] theorem afterPulses_gain : (afterPulses rest events s).gain = s.gain := rfl
@[simp] theorem afterPulses_pcnt : (afterPulses rest events s).pcnt = s.pcnt := rfl

/-- The data path takes no notice of the pins. -/
theorem assembleBit_afterPulses (b : Level) :
    (afterPulses rest events s).assembleBit b = afterPulses rest events (s.assembleBit b) := by
  by_cases hn : s.pcnt.toNat < 24
  · by_cases h7 : s.pcnt.toNat % 8 = 7
    · rw [assembleBit_store hn h7, assembleBit_store (s := afterPulses rest events s) hn h7]
      rfl
    · rw [assembleBit_shift hn h7, assembleBit_shift (s := afterPulses rest events s) hn h7]
      rfl
  · rw [assembleBit_discard hn, assembleBit_discard (s := afterPulses rest events s) hn]

/-- Slots that go on after a slot, with that slot's bit in the data path. -/
theorem afterPulses_enter_ckHi (rest' : List PortSample) (events' : List PinEvent) (b : Level) :
    afterPulses rest' events' (((afterPulses rest events s).assembleBit b).countPulse.enter .ckHi) =
      ((afterPulses rest' (events ++ events') s).assembleBit b).countPulse := by
  rw [assembleBit_afterPulses, assembleBit_afterPulses]
  simp [afterPulses, State.countPulse, State.enter]

end AfterPulses

/-- One bit slot: the pulse, the read, then the sampled bit to the data path (R218 to R220). -/
theorem runFor_slot {s : State} {rise fall io : PortSample} {rest : List PortSample} (hph : s.ph = .ckHi)
    (hin : s.inputs = rise :: fall :: io :: rest) (hrise : smooth rise = true) (hfall : smooth fall = true)
    (hio : smooth io = true) :
    runFor 3 s = nextSlot
      (((afterPulses rest (slotEvents s.clkpin s.datpin io.dout) s).assembleBit io.dout).countPulse) := by
  rw [runFor_succ_next (step_ckHi hph hin hrise), runFor_succ_next (step_ckLo rfl rfl hfall), runFor_one,
    step_smp rfl rfl hio]
  simp [afterPulses, slotEvents]

theorem exists_slot_of_length {slots : List PortSample} {n : Nat} (h : slots.length = 3 * (n + 1)) :
    ∃ rise fall io slots', slots = rise :: fall :: io :: slots' ∧ slots'.length = 3 * n := by
  match slots with
  | [] | [_] | [_, _] =>
    simp only [List.length_cons, List.length_nil] at h
    omega
  | rise :: fall :: io :: slots' =>
    simp only [List.length_cons] at h
    exact ⟨rise, fall, io, slots', rfl, by omega⟩

/-- The slots up to the last: each adds its three events and its bit, and the last ends the frame (R220). -/
theorem runFor_slots {s : State} {slots rest : List PortSample} {n total : Nat} (hph : s.ph = .ckHi)
    (hin : s.inputs = slots ++ rest) (hslots : ∀ io ∈ slots, smooth io = true) (hlen : slots.length = 3 * (n + 1))
    (htotal : totalPulses s.chan s.gain = some total) (hcount : s.pcnt.toNat + (n + 1) = total) (hmax : total < 32) :
    runFor slots.length s = endFrame (assembleBits (sampledBits slots)
      (afterPulses rest (frameEvents s.clkpin s.datpin (sampledBits slots)) s)) := by
  induction n generalizing s slots with
  | zero =>
    obtain ⟨rise, fall, io, slots, rfl, hrest⟩ := exists_slot_of_length hlen
    obtain rfl : slots = [] := List.length_eq_zero_iff.mp hrest
    simp only [List.forall_mem_cons] at hslots
    obtain ⟨hrise, hfall, hio, -⟩ := hslots
    have hnext : (s.pcnt + 1#5).toNat = total := by bv_omega
    rw [show [rise, fall, io].length = 3 from rfl, runFor_slot hph hin hrise hfall hio,
      nextSlot_end (by simpa using htotal) (by simpa using hnext)]
    simp [sampledBits, frameEvents, assembleBits]
  | succ n ih =>
    obtain ⟨rise, fall, io, slots, rfl, hrest⟩ := exists_slot_of_length hlen
    simp only [List.forall_mem_cons] at hslots
    obtain ⟨hrise, hfall, hio, hslots⟩ := hslots
    have hnext : (s.pcnt + 1#5).toNat + (n + 1) = total := by bv_omega
    have hne : (s.pcnt + 1#5).toNat ≠ total := by omega
    have hslot := (runFor_slot hph hin hrise hfall hio).trans
      (nextSlot_continue (total := total) (by simpa using htotal) (by simpa using hne))
    rw [show (rise :: fall :: io :: slots).length = 3 + slots.length from Nat.add_comm _ 3, runFor_add_of_next hslot,
      ih (by simp) (by simp) hslots hrest (by simpa using htotal) (by simpa using hnext), afterPulses_enter_ckHi]
    simp [sampledBits, frameEvents, assembleBits_cons]

theorem length_sampledBits {slots : List PortSample} {n : Nat} (h : slots.length = 3 * n) :
    (sampledBits slots).length = n := by
  induction n generalizing slots with
  | zero =>
    obtain rfl : slots = [] := List.length_eq_zero_iff.mp h
    rfl
  | succ n ih =>
    obtain ⟨rise, fall, io, slots, rfl, hrest⟩ := exists_slot_of_length h
    simp [sampledBits, ih hrest]

/-- No frame has more pulses than PCNT can count (R93). -/
theorem totalPulses_le {c : Channel} {g : Gain} {total : Nat} (h : totalPulses c g = some total) : total ≤ 27 := by
  obtain ⟨n, hn, rfl⟩ := totalPulses_eq_some.mp h
  have := idlePulses_eq_some.mp hn
  omega

/-- All bit slots of a frame, from its first rising edge (R92): the frame ends with all pulses counted and BYTES
assembled from its samples. -/
theorem runFor_frame {s : State} {slots rest : List PortSample} {total : Nat} (hph : s.ph = .ckHi)
    (hin : s.inputs = slots ++ rest) (hslots : ∀ io ∈ slots, smooth io = true) (hlen : slots.length = 3 * total)
    (htotal : totalPulses s.chan s.gain = some total) (hpcnt : s.pcnt = 0#5) (hacc : s.acc = 0#8) :
    runFor slots.length s = endFrame
      { s with
        inputs := rest, sck := false, ph := .smp, pcnt := BitVec.ofNat 5 total, acc := 0#8
        bytes := slotBytes s.bitord (sampledBits slots)
        trace := s.trace ++ frameEvents s.clkpin s.datpin (sampledBits slots) } := by
  have hmin := twentyFive_le_totalPulses htotal
  have hmax := totalPulses_le htotal
  have hbits : (sampledBits slots).length = total := length_sampledBits hlen
  obtain ⟨n, rfl⟩ : ∃ n, total = n + 1 := ⟨total - 1, by omega⟩
  rw [runFor_slots hph hin hslots hlen htotal (by simp [hpcnt]) (by omega),
    assembleBits_frame (s := afterPulses _ _ s) hpcnt hacc (by omega) (by omega), hbits]
  rfl

/-- A frame read from its first poll to the end of its frame (R190). -/
theorem runFor_frameRead {s : State} {polls slots rest : List PortSample} {ready : PortSample} {total : Nat}
    (hph : s.ph = .poll) (hpcnt : s.pcnt = 0#5) (hacc : s.acc = 0#8)
    (htotal : totalPulses s.chan s.gain = some total) (hin : s.inputs = polls ++ ready :: (slots ++ rest))
    (hpolls : ∀ io ∈ polls, smooth io = true ∧ io.dout = true) (hready : smooth ready = true)
    (hlow : ready.dout = false) (hslots : ∀ io ∈ slots, smooth io = true) (hlen : slots.length = 3 * total) :
    runFor (polls.length + 1 + slots.length) s = endFrame
      { s with
        inputs := rest, sck := false, ph := .smp, pcnt := BitVec.ofNat 5 total, acc := 0#8
        bytes := slotBytes s.bitord (sampledBits slots)
        trace := s.trace ++ List.replicate polls.length (.read s.datpin true) ++ [.read s.datpin false] ++
          frameEvents s.clkpin s.datpin (sampledBits slots) } := by
  rw [runFor_add_of_next (runFor_polls hph hin hpolls hready hlow)]
  exact runFor_frame rfl rfl hslots hlen htotal hpcnt hacc

/-- RDRAW starts a frame read in a Configured block that is Active (R192, R212, R216). -/
theorem exec_rdraw {s : State} (hlife : s.life = .configured) (hpwr : s.pwr = .active) :
    exec .rdraw s = .next { s with rspValid := false, cmd := 0x70000000#32, pcnt := 0#5, acc := 0#8, ph := .poll } := by
  simp only [exec, execRdraw, lifecycleCheck_eq_none.mpr hlife, powerGate_eq_none.mpr hpwr, Option.none_or,
    State.checked_none]
  rfl

/-- Settles O31: acceptance starts the frame read, whose end packs, decodes and answers the assembled bytes. -/
theorem rdrawReadsOneFrame : Obligations.RdrawReadsOneFrame := by
  unfold Obligations.RdrawReadsOneFrame
  intro s polls slots rest ready total hlife hpwr htotal hin hpolls hready hlow hslots hlen
  have hdata : 24 ≤ (sampledBits slots).length := by
    have hmin := twentyFive_le_totalPulses htotal
    rw [length_sampledBits hlen]
    omega
  have hframe := runFor_frameRead
    (s := { s with rspValid := false, cmd := 0x70000000#32, pcnt := 0#5, acc := 0#8, ph := .poll })
    rfl rfl rfl htotal hin hpolls hready hlow hslots hlen
  exact ⟨_, _, exec_rdraw hlife hpwr, hframe.trans (endFrame_rdraw rfl), rfl,
    fun k hk => getLsbD_pack_slotBytes s.bitord s.byteord hdata hk⟩

end Sys2Proof.Proofs
end

