-- ==== Sys2Proof/Proofs/PowerCommands.lean ====
section
/-! The power commands of a Configured block (R201, R202): the two that find their power state already commanded, then
PWRUP from its acceptance to its answer, the clock write and the frame read that follows it. -/

namespace Sys2Proof.Proofs

open Sys2Proof.Machine Sys2Proof.Safety

section Configured

variable {s : State} (hlife : s.life = .configured)

include hlife

/-- R202. -/
theorem exec_pwrdn_of_poweredDown (hpwr : s.pwr = .poweredDown) :
    exec .pwrdn s = .next (answered 0#4 0#32 s) := by
  simp only [exec, execPwrdn, lifecycleCheck_eq_none.mpr hlife, State.checked_none, State.beginCommand_pwr, hpwr]
  rfl

/-- R202. -/
theorem exec_pwrup_of_active (hpwr : s.pwr = .active) : exec .pwrup s = .next (answered 0#4 0#32 s) := by
  simp only [exec, execPwrup, lifecycleCheck_eq_none.mpr hlife, State.checked_none, State.beginCommand_pwr, hpwr]
  rfl

/-- R201, R212. -/
theorem exec_pwrup_of_poweredDown (hpwr : s.pwr = .poweredDown) :
    exec .pwrup s = .next ((s.beginCommand.latch .pwrup).enter .uWr) := by
  simp only [exec, execPwrup, lifecycleCheck_eq_none.mpr hlife, State.checked_none, State.beginCommand_pwr, hpwr]

end Configured

/-- R224, R216: PWRUP's write leaves the block Active at the start of a frame read. -/
theorem step_uWr {s : State} {io : PortSample} {rest : List PortSample} (hph : s.ph = .uWr)
    (hin : s.inputs = io :: rest) (hio : smooth io = true) :
    step s = .next
      (State.startFrame
        { s with inputs := rest, trace := s.trace ++ [.write s.clkpin false], sck := false, pwr := .active }) := by
  obtain ⟨hrst, hok⟩ := smooth_iff.mp hio
  rw [step_phase (by simp [hph]) hin hrst, phaseStep_uWr io (s := { s with inputs := rest }) hph, hok]
  rfl

/-- Settles O40. -/
theorem powerCommandsAreIdempotent : Obligations.PowerCommandsAreIdempotent := by
  unfold Obligations.PowerCommandsAreIdempotent
  exact fun s hlife => ⟨fun hpwr => exec_pwrdn_of_poweredDown hlife hpwr, fun hpwr => exec_pwrup_of_active hlife hpwr⟩

/-- Settles O39: the write starts the same frame read as RDRAW's; its end packs the assembled bytes into FRAME, decodes
nothing and answers 0. -/
theorem pwrupFlushesOneFrame : Obligations.PwrupFlushesOneFrame := by
  unfold Obligations.PwrupFlushesOneFrame
  intro s polls slots rest first ready total hlife hpwr htotal hin hfirst hpolls hready hlow hslots hlen
  have hdata : 24 ≤ (sampledBits slots).length := by
    have hmin := twentyFive_le_totalPulses htotal
    rw [length_sampledBits hlen]
    omega
  have hwrite := step_uWr (s := (s.beginCommand.latch .pwrup).enter .uWr) rfl hin hfirst
  have hframe := runFor_frameRead
    (s := State.startFrame { (s.beginCommand.latch .pwrup) with
      inputs := polls ++ ready :: (slots ++ rest), trace := s.trace ++ [.write s.clkpin false], sck := false
      pwr := .active })
    rfl rfl rfl htotal rfl hpolls hready hlow hslots hlen
  have hsteps : 1 + polls.length + 1 + slots.length = (polls.length + 1 + slots.length) + 1 := by omega
  rw [hsteps]
  exact ⟨_, _, exec_pwrup_of_poweredDown hlife hpwr,
    (runFor_succ_next hwrite _).trans (hframe.trans (endFrame_pwrup rfl)), rfl,
    fun k hk => getLsbD_pack_slotBytes s.bitord s.byteord hdata hk⟩

end Sys2Proof.Proofs
end

