-- ==== Sys2Proof/Proofs/SequencerRules.lean ====
section
/-! The pin event each phase makes and what its failure does (R211, R225); the rules of single steps that remain, for
the idle block (R212), RDY's and PWRDN's phases (R222, R223) and SMP (R220, R221); then RDY and PWRDN from acceptance to
answer, and the poll (R217). -/

namespace Sys2Proof.Proofs

open Sys2Proof.Machine Sys2Proof.Safety

/-- The step of a phase whose pin event fails (R225). -/
theorem phaseStep_failed {io : PortSample} {s : State} (hbusy : s.ph ≠ .idle) (hfail : io.ioFail = true) :
    phaseStep io s = .next (answered 2#4 0#32 { s with trace := s.trace ++ phaseEventFailed s }) := by
  obtain ⟨t, ht⟩ : ∃ t, phaseStep io s = .next t := by
    by_cases hph : s.ph = .smp
    · exact ⟨_, by rw [phaseStep_smp io hph, if_pos hfail]⟩
    · exact phaseStep_not_smp io hph
  cases phaseDone_of_phaseStep hbusy ht with
  | failed e _ he =>
    rw [ht, he]
    rfl
  | _ => simp_all

/-- What a phase's step appends to the trace: its event, marked failed if it failed (R66, R211). -/
theorem phaseDone_trace_eq {io : PortSample} {s t : State} (h : PhaseDone io s t) :
    t.trace = s.trace ++ (if io.ioFail then phaseEventFailed s else phaseEvent io s) := by
  cases h with
  | failed e hfail he => simp [hfail, he]
  | rdrawEnd _ _ hph hok _ _ _ hu | pwrupEnd _ _ hph hok _ _ _ hu => simp [phaseEvent, hph, hok, hu]
  | _ => simp [phaseEvent, *]

/-- The phase's event does not depend on the samples still to come. -/
@[simp] theorem phaseEvent_advance (io : PortSample) (s : State) : phaseEvent io s.advance = phaseEvent io s := by
  simp [phaseEvent]

@[simp] theorem phaseEventFailed_advance (s : State) : phaseEventFailed s.advance = phaseEventFailed s := by
  simp [phaseEventFailed]

/-- A busy block that is not reset does its phase's step (R210). -/
theorem phaseDone_of_busy_step {s t : State} (hbusy : s.ph ≠ .idle) (hrst : s.ports.rst = false)
    (h : step s = .next t) : PhaseDone s.ports s.advance t := by
  obtain ⟨hr, -⟩ | ⟨-, hidle, -⟩ | ⟨-, hidle, -⟩ | ⟨-, -, he⟩ := step_cases s
  · simp [hrst] at hr
  · exact absurd hidle hbusy
  · exact absurd hidle hbusy
  · exact phaseDone_of_phaseStep (by simpa using hbusy) (he ▸ h)

/-- The phases' codes count them in R211's order. -/
theorem toNat_phase_code (p : Phase) : p.code.toNat = p.ctorIdx := by cases p <;> rfl

theorem phase_code_injective {p q : Phase} (h : p.code = q.code) : p = q := by
  have hidx : p.ctorIdx = q.ctorIdx := by rw [← toNat_phase_code, h, toNat_phase_code]
  rw [← Phase.ofNat_ctorIdx p, hidx, Phase.ofNat_ctorIdx]

/-- Settles O10: a busy step that is no reset is its phase's step, which makes that phase's event. -/
theorem phaseTable : Obligations.PhaseTable := by
  unfold Obligations.PhaseTable
  refine ⟨fun p q => ⟨by cases p <;> decide, phase_code_injective⟩, fun s t hbusy hrst h => ?_⟩
  simpa using phaseDone_trace_eq (phaseDone_of_busy_step hbusy hrst h)

section ListedSample

variable {s : State} {io : PortSample} {rest : List PortSample}

/-- The model's choice, log 5. -/
theorem step_wait (hph : s.ph = .idle) (hin : s.inputs = io :: rest) (hrst : io.rst = false)
    (hvalid : io.cmdValid = false) : step s = .next { s with inputs := rest } := by
  simp [step_cons hin, tick, hph, hrst, hvalid]

/-- R225. -/
theorem step_failed (hbusy : s.ph ≠ .idle) (hin : s.inputs = io :: rest) (hrst : io.rst = false)
    (hfail : io.ioFail = true) :
    step s = .next (answered 2#4 0#32 { s with inputs := rest, trace := s.trace ++ phaseEventFailed s }) := by
  rw [step_phase hbusy hin hrst, phaseStep_failed (s := { s with inputs := rest }) hbusy hfail]
  rfl

/-- R222. -/
theorem step_qRd (hph : s.ph = .qRd) (hin : s.inputs = io :: rest) (hio : smooth io = true) :
    step s = .next (answered 0#4 (if dataReady io.dout then 1#32 else 0#32)
      { s with inputs := rest, trace := s.trace ++ [.read s.datpin io.dout] }) := by
  obtain ⟨hrst, hok⟩ := smooth_iff.mp hio
  rw [step_phase (by simp [hph]) hin hrst, phaseStep_qRd io (s := { s with inputs := rest }) hph, hok]
  rfl

/-- R223. -/
theorem step_dWr (hph : s.ph = .dWr) (hin : s.inputs = io :: rest) (hio : smooth io = true) :
    step s = .next (answered 0#4 0#32
      { s with
        inputs := rest, trace := s.trace ++ [.write s.clkpin true], sck := true, pwr := .poweredDown }) := by
  obtain ⟨hrst, hok⟩ := smooth_iff.mp hio
  rw [step_phase (by simp [hph]) hin hrst, phaseStep_dWr io (s := { s with inputs := rest }) hph, hok]
  rfl

end ListedSample

/-- Settles O6. -/
theorem stepRunsTheDecodedCommand : Obligations.StepRunsTheDecodedCommand := by
  unfold Obligations.StepRunsTheDecodedCommand
  intro s io rest i hph hin hrst hvalid hword
  rw [step_accept hph hin hrst hvalid, accept_command hword]

/-- Settles O8. -/
theorem idleBlockWaits : Obligations.IdleBlockWaits := by
  unfold Obligations.IdleBlockWaits
  exact fun s io rest => step_wait

/-- Settles O13. -/
theorem failedPinEventEndsTheCommand : Obligations.FailedPinEventEndsTheCommand := by
  unfold Obligations.FailedPinEventEndsTheCommand
  exact fun s io rest => step_failed

/-- A low data pin is a ready one (R41). -/
theorem ite_dataReady {α : Type} (v : Level) (a b : α) : (if dataReady v then a else b) = if v then b else a := by
  cases v <;> rfl

/-- Settles O11: one rule per phase; R216's two uses are PWRUP's write and RDRAW's acceptance. -/
theorem sequencerPhases : Obligations.SequencerPhases := by
  unfold Obligations.SequencerPhases
  refine ⟨rfl, fun s => rfl, fun s io rest hin hio => ?_⟩
  refine ⟨fun h => step_iOut h hin hio, fun h => step_iIn h hin hio, fun h => step_iWr h hin hio, fun h => ?qRd,
    fun h => step_dWr h hin hio, fun h => step_uWr h hin hio, exec_rdraw, fun h => ?poll,
    fun h => step_ckHi h hin hio, fun h => step_ckLo h hin hio⟩
  case qRd => rw [step_qRd h hin hio, ite_dataReady]
  case poll => rw [step_poll h hin hio, ite_dataReady]

/-- Of the state, a sampled bit touches ACC and BYTES only (R220). -/
theorem assembleBit_eq (b : Level) (s : State) :
    s.assembleBit b = { s with acc := (s.assembleBit b).acc, bytes := (s.assembleBit b).bytes } := by
  by_cases hn : s.pcnt.toNat < 24
  · by_cases h7 : s.pcnt.toNat % 8 = 7
    · rw [assembleBit_store hn h7]
    · rw [assembleBit_shift hn h7]
  · rw [assembleBit_discard hn]

/-- The byte step of MSB-first order shifts the bit in from the right (R141). -/
theorem msbStep_eq (acc : Byte) (b : Level) : msbStep acc b = (acc <<< 1) ||| (if b then 1#8 else 0#8) := by
  cases b <;> rfl

/-- The byte step of LSB-first order shifts the bit in from the left (R142). -/
theorem lsbStep_eq (acc : Byte) (b : Level) : lsbStep acc b = (acc >>> 1) ||| (if b then 0x80#8 else 0#8) := by
  cases b <;> rfl

/-- The eighth slot of each byte stores it in its own place (R34, R220). -/
theorem set_byteOfSlot (bs : ByteSeq) {n : Nat} (hn : n < 24) (h7 : n % 8 = 7) (v : Byte) :
    bs.set (n / 8) v =
      { b0 := if n = 7 then v else bs.b0, b1 := if n = 15 then v else bs.b1, b2 := if n = 23 then v else bs.b2 } := by
  obtain rfl | rfl | rfl : n = 7 ∨ n = 15 ∨ n = 23 := by omega
  · rfl
  · rfl
  · rfl

/-- Settles O12: the slot's bit goes to ACC and BYTES by the three rules of `assembleBit`, then the count decides
between the next slot and the end of the frame. -/
theorem sampleStep : Obligations.SampleStep := by
  unfold Obligations.SampleStep
  intro s io rest total hph hin hio htotal
  have hstep := step_smp hph hin hio
  refine ⟨_, ?frame, fun hn => ?data, fun hn => ?idle, fun hne => hstep.trans (nextSlot_continue ?_ hne),
    fun heq hcmd => hstep.trans ((nextSlot_end ?_ heq).trans (endFrame_rdraw ?rdraw)),
    fun heq hcmd => hstep.trans ((nextSlot_end ?_ heq).trans (endFrame_pwrup ?pwrup))⟩
  case frame =>
    conv_lhs => rw [assembleBit_eq]
    rfl
  case data =>
    refine ⟨orderStep s.bitord s.acc io.dout, fun h => ?_, fun h => ?_, fun h7 => ?_, fun h7 => ?_⟩
    · rw [h]
      exact msbStep_eq _ _
    · rw [h]
      exact lsbStep_eq _ _
    · rw [assembleBit_store]
      exacts [⟨rfl, set_byteOfSlot s.bytes hn h7 _⟩, hn, h7]
    · rw [assembleBit_shift]
      exacts [⟨rfl, rfl⟩, hn, h7]
  case idle =>
    rw [assembleBit_discard]
    exacts [⟨rfl, rfl⟩, Nat.not_lt.mpr hn]
  case rdraw => simpa [encode, placeAt] using hcmd
  case pwrup => simpa [encode, placeAt] using hcmd
  all_goals simpa using htotal

/-- RDY starts its read in a Configured block, whatever its power state (R191, R212). -/
theorem exec_rdy {s : State} (hlife : s.life = .configured) :
    exec .rdy s = .next { s with rspValid := false, cmd := 0x60000000#32, ph := .qRd } := by
  simp only [exec, execRdy, lifecycleCheck_eq_none.mpr hlife, State.checked_none]
  rfl

/-- PWRDN starts its write in a Configured block that is Active (R200, R212). -/
theorem exec_pwrdn_of_active {s : State} (hlife : s.life = .configured) (hpwr : s.pwr = .active) :
    exec .pwrdn s = .next { s with rspValid := false, cmd := 0x80000000#32, ph := .dWr } := by
  simp only [exec, execPwrdn, lifecycleCheck_eq_none.mpr hlife, State.checked_none, State.beginCommand_pwr, hpwr]
  rw [← hpwr]
  rfl

/-- Settles O30. -/
theorem rdyReportsReadiness : Obligations.RdyReportsReadiness := by
  unfold Obligations.RdyReportsReadiness
  intro s io rest hlife hin hio
  refine ⟨exec_rdy hlife, ?_⟩
  rw [runFor_one, step_qRd (s := { s with rspValid := false, cmd := 0x60000000#32, ph := .qRd }) rfl hin hio,
    ite_dataReady]
  rfl

/-- Settles O38. -/
theorem pwrdnHoldsTheClockHigh : Obligations.PwrdnHoldsTheClockHigh := by
  unfold Obligations.PwrdnHoldsTheClockHigh
  intro s io rest hlife hpwr hin hio
  refine ⟨exec_pwrdn_of_active hlife hpwr, ?_⟩
  rw [runFor_one, step_dWr (s := { s with rspValid := false, cmd := 0x80000000#32, ph := .dWr }) rfl hin hio]
  rfl

/-- Settles O32, by induction on the polls: each logs its read and stays in POLL. -/
theorem pollingNeverPulses : Obligations.PollingNeverPulses := by
  unfold Obligations.PollingNeverPulses
  intro s polls rest hph hin hpolls
  induction polls generalizing s with
  | nil =>
    rw [List.nil_append] at hin
    simp [runFor_zero, ← hin]
  | cons io polls ih =>
    obtain ⟨⟨hio, hhigh⟩, hpolls⟩ := List.forall_mem_cons.mp hpolls
    rw [List.length_cons, runFor_succ_next (step_poll hph hin hio), hhigh, ih _ rfl rfl hpolls]
    simp [List.replicate_succ, dataReady, hph]

end Sys2Proof.Proofs
end

