-- ==== Sys2Proof/Proofs/Acceptance.lean ====
section
/-! Acceptance in two parts (R212, R238): the checks, of which the first that fails is raised, and each command's own
start; then what acceptance leaves unchanged. -/

namespace Sys2Proof.Proofs

open Sys2Proof.Machine Sys2Proof.Safety

/-- What acceptance does with a command that has passed its checks, RSP_VALID being cleared (R212). -/
def startOf (i : Instr) (t : State) : State :=
  match i with
  | .init p q g c bo yo => (t.latch (.init p q g c bo yo)).enter .iOut
  | .setgain g => { t with gain := g }.respond okCode 0#32
  | .getgain => t.respond okCode (t.gain.setWidth 32)
  | .setchan c => { t with chan := c }.respond okCode 0#32
  | .getchan => t.respond okCode (t.chan.code.setWidth 32)
  | .rdy => (t.latch .rdy).enter .qRd
  | .rdraw => (t.latch .rdraw).startFrame
  | .pwrdn => if t.pwr = .poweredDown then t.respond okCode 0#32 else (t.latch .pwrdn).enter .dWr
  | .pwrup => if t.pwr = .active then t.respond okCode 0#32 else (t.latch .pwrup).enter .uWr

/-- The checks of a command, in R238's order. -/
def checksOf (i : Instr) (s : State) : Option CmdError :=
  match i with
  | .init _ _ g c _ _ => (lifecycleCheck .unconfigured s).or ((gainCheck g).or (pairCheck c g))
  | .setgain g => (lifecycleCheck .configured s).or ((gainCheck g).or (pairCheck s.chan g))
  | .setchan c => (lifecycleCheck .configured s).or (pairCheck c s.gain)
  | .rdraw => (lifecycleCheck .configured s).or (powerGate s)
  | .getgain | .getchan | .rdy | .pwrdn | .pwrup => lifecycleCheck .configured s

theorem exec_eq_checked (i : Instr) (s : State) : exec i s = .next (s.checked (checksOf i s) (startOf i)) := by
  cases i with
  | pwrdn | pwrup =>
    simp only [exec, execPwrdn, execPwrup, checksOf]
    congr 2
    funext t
    cases hpwr : t.pwr <;> simp [startOf, hpwr]
  | _ => rfl

/-- An accepted command is refused by its first failing check, or starts (R212). -/
theorem exec_cases {i : Instr} {s t : State} (h : exec i s = .next t) :
    (∃ e, t = s.beginCommand.raise e) ∨ checksOf i s = none ∧ t = startOf i s.beginCommand := by
  rw [exec_eq_checked] at h
  cases hchecks : checksOf i s with
  | some e =>
    rw [hchecks] at h
    cases h
    exact .inl ⟨e, rfl⟩
  | none =>
    rw [hchecks] at h
    cases h
    exact .inr ⟨rfl, rfl⟩

/-- Settles O29: a refused command writes the response registers only, and of the starts each has its own registers. -/
theorem acceptanceFrame : Obligations.AcceptanceFrame := by
  unfold Obligations.AcceptanceFrame
  intro i s t h
  obtain ⟨e, rfl⟩ | ⟨-, rfl⟩ := exec_cases h
  · simp
  · cases i with
    | pwrdn | pwrup => cases hpwr : s.pwr <;> simp [startOf, hpwr]
    | _ => simp [startOf]

theorem exec_inputs {i : Instr} {s t : State} (h : exec i s = .next t) : t.inputs = s.inputs := by
  obtain ⟨-, -, -, -, -, -, -, -, -, -, -, hin, -⟩ := acceptanceFrame i s t h
  exact hin

end Sys2Proof.Proofs
end

