-- ==== Sys2Proof/Proofs/Progress.lean ====
section
/-! The sequencer always goes on, and in every phase but the poll and the write before it a bound on its remaining steps
shrinks (R227). -/

namespace Sys2Proof.Proofs

open Sys2Proof.Machine Sys2Proof.Safety

/-- A frame can end: the pair has a pulse total, and the frame belongs to a command (R42, R212). -/
def CanEndFrame (s : State) : Prop :=
  (s.cmd = encode .rdraw ∨ s.cmd = encode .pwrup) ∧ ∃ total, totalPulses s.chan s.gain = some total

theorem endFrame_next {s : State} (h : s.cmd = encode .rdraw ∨ s.cmd = encode .pwrup) :
    ∃ t, endFrame s = .next t := by
  obtain h | h := h
  · exact ⟨_, endFrame_rdraw h⟩
  · exact ⟨_, endFrame_pwrup h⟩

theorem nextSlot_next {s : State} (h : CanEndFrame s) : ∃ t, nextSlot s = .next t := by
  obtain ⟨hcmd, total, htotal⟩ := h
  by_cases hn : s.pcnt.toNat = total
  · rw [nextSlot_end htotal hn]
    exact endFrame_next hcmd
  · exact ⟨_, nextSlot_continue htotal hn⟩

/-- Every phase's step answers a next state; only SMP's needs a reason. -/
theorem phaseStep_next (io : PortSample) {s : State} (hsmp : s.ph = .smp → CanEndFrame s) :
    ∃ t, phaseStep io s = .next t := by
  by_cases hph : s.ph = .smp
  · rw [phaseStep_smp io hph]
    split
    · exact ⟨_, rfl⟩
    · exact nextSlot_next (by simpa [CanEndFrame] using hsmp hph)
  · exact phaseStep_not_smp io hph

/-- Settles O51: the invariant gives SMP a pulse total and a reading command. -/
theorem noStepStops : Obligations.NoStepStops := by
  unfold Obligations.NoStepStops
  intro s hinv
  obtain ⟨-, he⟩ | ⟨-, -, -, he⟩ | ⟨-, -, -, he⟩ | ⟨-, -, he⟩ := step_cases s <;> rw [he]
  · exact ⟨_, rfl⟩
  · exact ⟨_, rfl⟩
  · exact accept_next _ _
  · refine phaseStep_next _ fun hph => ?_
    have hreading := (phaseFacts_of_inv (inv_advance hinv)).reading (.inr (.inr (.inr hph)))
    obtain ⟨total, htotal, -⟩ := totalPulses_of_valid ((inv_advance hinv).pairValid hreading.life)
    exact ⟨hreading.cmd, total, htotal⟩

/-- In a bit slot whose frame has at most `k` steps left, counted from the slot's rising edge (R91). -/
def SlotsLeft (k : Nat) (s : State) : Prop :=
  (s.cmd = encode .rdraw ∨ s.cmd = encode .pwrup) ∧
    ∃ total, totalPulses s.chan s.gain = some total ∧ s.pcnt.toNat < total ∧ 3 * total ≤ 3 * s.pcnt.toNat + k

/-- The block has at most `k` steps left to IDLE (R227). A poll has no bound (R194). -/
def StepsLeft (k : Nat) (s : State) : Prop :=
  match s.ph with
  | .idle => True
  | .qRd | .dWr | .iWr => 1 ≤ k
  | .iIn => 2 ≤ k
  | .iOut => 3 ≤ k
  | .uWr | .poll => False
  | .ckHi => SlotsLeft k s
  | .ckLo => SlotsLeft (k + 1) s
  | .smp => SlotsLeft (k + 2) s

theorem stepsLeft_of_idle {s : State} (h : s.ph = .idle) (k : Nat) : StepsLeft k s := by
  simp [StepsLeft, h]

theorem not_stepsLeft_zero {s : State} (hbusy : s.ph ≠ .idle) : ¬ StepsLeft 0 s := by
  have hslots {k : Nat} (hk : k < 3) : ¬ SlotsLeft k s := by
    rintro ⟨-, total, -, hlt, hle⟩
    omega
  cases hph : s.ph with
  | idle => exact absurd hph hbusy
  | ckHi | ckLo | smp => simpa only [StepsLeft, hph] using hslots (by decide)
  | _ => simp [StepsLeft, hph]

theorem StepsLeft.canEndFrame {k : Nat} {s : State} (h : StepsLeft k s) (hph : s.ph = .smp) : CanEndFrame s := by
  simp only [StepsLeft, hph] at h
  obtain ⟨hcmd, total, htotal, -⟩ := h
  exact ⟨hcmd, total, htotal⟩

/-- A bit slot that is not the last uses up its three steps (R220). -/
theorem slotsLeft_succ {k total : Nat} {s t : State} (h : SlotsLeft (k + 3) s)
    (htotal : totalPulses s.chan s.gain = some total) (hne : (s.pcnt + 1#5).toNat ≠ total) (hcmd : t.cmd = s.cmd)
    (hchan : t.chan = s.chan) (hgain : t.gain = s.gain) (hpcnt : t.pcnt = s.pcnt + 1#5) : SlotsLeft k t := by
  obtain ⟨hreader, total', htotal', hlt, hle⟩ := h
  obtain rfl : total = total' := Option.some.inj (htotal.symm.trans htotal')
  have hmax := totalPulses_le htotal
  have hcount : (s.pcnt + 1#5).toNat = s.pcnt.toNat + 1 := by bv_omega
  refine ⟨hcmd ▸ hreader, total, by rw [hchan, hgain, htotal], ?_, ?_⟩ <;> rw [hpcnt, hcount] <;> omega

theorem stepsLeft_phaseDone {k : Nat} {io : PortSample} {s t : State} (h : StepsLeft (k + 1) s)
    (hp : PhaseDone io s t) : StepsLeft k t := by
  cases hp with
  | failed | iWr | qRd | dWr | rdrawEnd | pwrupEnd => exact stepsLeft_of_idle (by simp) k
  | iOut hph | iIn hph =>
    simp only [StepsLeft, hph] at h
    simpa [StepsLeft] using h
  | uWr hph | poll hph => simp [StepsLeft, hph] at h
  | ckHi hph | ckLo hph =>
    simp only [StepsLeft, hph] at h
    exact h
  | nextSlot total hph _ htotal hne =>
    simp only [StepsLeft, hph] at h
    exact slotsLeft_succ h htotal hne (by simp) (by simp) (by simp) (by simp)

/-- Every step uses up its port sample. -/
theorem step_inputs {s t : State} {io : PortSample} {rest : List PortSample} (hin : s.inputs = io :: rest)
    (h : step s = .next t) : t.inputs = rest := by
  have hadv : s.advance.inputs = rest := by rw [State.advance_cons hin]
  obtain ⟨-, rfl⟩ | ⟨-, hst⟩ := step_inversion h
  · exact hadv
  · cases hst with
    | waited => exact hadv
    | accepted _ ha => cases ha <;> exact hadv
    | phase _ hp =>
      cases hp with
      | rdrawEnd _ _ _ _ _ _ _ hu | pwrupEnd _ _ _ _ _ _ _ hu => simpa [hu] using hadv
      | _ => simpa using hadv

/-- A block with a bound on its steps is idle by then, unless a reset comes first or the samples run out (R227). -/
theorem exists_idle_of_stepsLeft {k : Nat} {s : State} (h : StepsLeft k s)
    (hunreset : ∀ io ∈ s.inputs, unreset io = true) (hlen : k ≤ s.inputs.length) :
    ∃ j u, j ≤ k ∧ runFor j s = .next u ∧ u.ph = .idle := by
  induction k generalizing s with
  | zero => exact ⟨0, s, le_rfl, rfl, not_not.mp fun hbusy => not_stepsLeft_zero hbusy h⟩
  | succ k ih =>
    by_cases hph : s.ph = .idle
    · exact ⟨0, s, Nat.zero_le _, rfl, hph⟩
    · obtain ⟨io, rest, hin⟩ : ∃ io rest, s.inputs = io :: rest :=
        List.exists_cons_of_length_pos (by omega)
      rw [hin, List.forall_mem_cons] at hunreset
      obtain ⟨hio, hrest⟩ := hunreset
      have hrst : io.rst = false := by simpa [unreset] using hio
      obtain ⟨t, ht⟩ := phaseStep_next io (s := { s with inputs := rest }) h.canEndFrame
      have hstep : step s = .next t := (step_phase hph hin hrst).trans ht
      have hinputs : t.inputs = rest := step_inputs hin hstep
      have hleft : StepsLeft k t :=
        stepsLeft_phaseDone (s := { s with inputs := rest }) h (phaseDone_of_phaseStep hph ht)
      obtain ⟨j, u, hj, hrun, hu⟩ := ih hleft (by rwa [hinputs]) (by rw [hinputs]; simpa [hin] using hlen)
      exact ⟨j + 1, u, by omega, by rw [runFor_succ_next hstep, hrun], hu⟩

/-- A command that starts no frame read has at most INIT's three pin events before it (R212). -/
theorem stepsLeft_startOf {i : Instr} (hrdraw : i ≠ .rdraw) (hpwrup : i ≠ .pwrup) (s : State) :
    StepsLeft 3 (startOf i s) := by
  cases i with
  | rdraw => exact absurd rfl hrdraw
  | pwrup => exact absurd rfl hpwrup
  | pwrdn => cases hpwr : s.pwr <;> simp [startOf, hpwr, StepsLeft]
  | _ => simp [startOf, StepsLeft]

/-- Settles O36: INIT's three events are the longest. -/
theorem shortCommandsEndWithinThreeSteps : Obligations.ShortCommandsEndWithinThreeSteps := by
  unfold Obligations.ShortCommandsEndWithinThreeSteps
  intro i s hrdraw hpwrup hunreset hlen
  obtain ⟨s0, hexec⟩ := exec_next i s
  have hleft : StepsLeft 3 s0 := by
    obtain ⟨e, rfl⟩ | ⟨-, rfl⟩ := exec_cases hexec
    · exact stepsLeft_of_idle rfl 3
    · exact stepsLeft_startOf hrdraw hpwrup _
  have hin := exec_inputs hexec
  obtain ⟨k, u, hk, hrun, hu⟩ := exists_idle_of_stepsLeft hleft (by rwa [hin]) (by rwa [hin])
  exact ⟨s0, k, u, hexec, hk, hrun, hu⟩

/-- Settles O37: at most 27 pulses of three steps each. -/
theorem frameEndsWithinEightyOneSteps : Obligations.FrameEndsWithinEightyOneSteps := by
  unfold Obligations.FrameEndsWithinEightyOneSteps
  intro s hpair hcmd hph hpcnt hunreset hlen
  obtain ⟨total, htotal, hmin, hmax⟩ := totalPulses_of_valid hpair
  have hcount : s.pcnt.toNat = 0 := by rw [hpcnt]; rfl
  have hleft : StepsLeft 81 s := by
    simp only [StepsLeft, hph]
    exact ⟨hcmd, total, htotal, by omega, by omega⟩
  exact exists_idle_of_stepsLeft hleft hunreset hlen

end Sys2Proof.Proofs
end

