-- ==== Sys2Proof/Proofs/PseudocodeSteps.lean ====
section
/-! R226: the sequencer against the pseudocode. The two go side by side, one pin event at a time, their states the same
but for PH, CMD, PCNT and ACC (`onSequencer`). `RunsAs m q` says that the sequencer's run from `q` comes out as the
pseudocode's result `m`; here, what it takes for that when nothing, a step or a pin event is left. -/

namespace Sys2Proof.Proofs

open Sys2Proof.Machine Sys2Proof.Safety

/-- The sequencer where the pseudocode stands at `p`: only the sequencer keeps a phase, the command's word and a slot
count, and it clears ACC where the pseudocode does not (R220). -/
def onSequencer (x : Phase) (w : Word) (n : BitVec 5) (a : Byte) (p : State) : State :=
  { p with ph := x, cmd := w, pcnt := n, acc := a }

/-- Run from `q`, the sequencer comes to the end the pseudocode came to, or, if that has not ended within the listed
port samples, it is busy all along them (R226). -/
def RunsAs (m : Option State) (q : State) : Prop :=
  match m with
  | some t => ∃ n u, n ≤ q.inputs.length ∧ runFor n q = .next u ∧ u.ph = .idle ∧ SameCommandEnd t u
  | none => ∀ n, n ≤ q.inputs.length → ∃ u, runFor n q = .next u ∧ u.ph ≠ .idle

theorem sameCommandEnd_onSequencer (x : Phase) (w : Word) (n : BitVec 5) (a : Byte) (p : State) :
    SameCommandEnd p (onSequencer x w n a p) := by
  constructor <;> rfl

theorem runsAs_ended {t q : State} (hph : q.ph = .idle) (h : SameCommandEnd t q) : RunsAs (some t) q :=
  ⟨0, q, Nat.zero_le _, rfl, hph, h⟩

theorem runsAs_answered (status : StatusCode) (d : Word) (p : State) :
    RunsAs (some (p.respond status d)) (p.respond status d) :=
  runsAs_ended rfl (sameCommandEnd_onSequencer .idle p.cmd p.pcnt p.acc _)

theorem runsAs_waiting {q : State} (hbusy : q.ph ≠ .idle) (hin : q.inputs = []) : RunsAs none q := by
  intro n hn
  obtain rfl : n = 0 := by simpa [hin] using hn
  exact ⟨q, rfl, hbusy⟩

/-- A step of the busy block goes before a run. -/
theorem runsAs_step {m : Option State} {q q' : State} {io : PortSample} {rest : List PortSample}
    (hbusy : q.ph ≠ .idle) (hin : q.inputs = io :: rest) (hstep : step q = .next q') (h : RunsAs m q') :
    RunsAs m q := by
  have hlen : q.inputs.length = q'.inputs.length + 1 := by rw [step_inputs hin hstep, hin, List.length_cons]
  cases m with
  | some t =>
    obtain ⟨n, u, hn, hrun, hend⟩ := h
    exact ⟨n + 1, u, by omega, by rw [runFor_succ_next hstep, hrun], hend⟩
  | none =>
    intro n hn
    cases n with
    | zero => exact ⟨q, rfl, hbusy⟩
    | succ n =>
      rw [runFor_succ_next hstep]
      exact h n (by omega)

section Micro

variable {α β γ : Type}

theorem andThen_assoc (m : Micro α) (k : α → State → Micro β) (k' : β → State → Micro γ) :
    andThen (andThen m k) k' = andThen m (fun a s => andThen (k a s) k') := by
  cases m <;> rfl

theorem andThen_done (m : Micro α) : andThen m .done = m := by
  cases m <;> rfl

end Micro

/-- A port sample is used up. -/
def withInputs (rest : List PortSample) (s : State) : State := { s with inputs := rest }

/-- A completed write: logged, and mirrored into SCK (R64). -/
def written (p : Pin) (l : Level) (s : State) : State := { s.log (.write p l) with sck := l }

/-- A pin primitive that logs `bad` if it fails and otherwise does `done` (R66). -/
def IsPrimitive (event : PortSample → State → Except State State) (bad : PinEvent)
    (done : PortSample → State → State) : Prop :=
  ∀ io s, event io s = if io.ioFail then .error (s.log bad) else .ok (done io s)

/-- R62. -/
theorem isPrimitive_pinCfgOut (p : Pin) :
    IsPrimitive (fun io => pinCfgOut io p) (.cfgOutFailed p) (fun _ => State.log (.cfgOut p)) :=
  fun io s => pinEvent_eq io _ _ s

/-- R63. -/
theorem isPrimitive_pinCfgIn (p : Pin) :
    IsPrimitive (fun io => pinCfgIn io p) (.cfgInFailed p) (fun _ => State.log (.cfgIn p)) :=
  fun io s => pinEvent_eq io _ _ s

/-- R64. -/
theorem isPrimitive_pinWrite (p : Pin) (l : Level) :
    IsPrimitive (fun io => pinWrite io p l) (.writeFailed p l) (fun _ => written p l) := by
  intro io s
  simp only [pinWrite, pinEvent_eq]
  split <;> rfl

/-- R65. -/
theorem isPrimitive_pinRead (p : Pin) :
    IsPrimitive (fun io => pinRead io p) (.readFailed p) (fun io => State.log (.read p io.dout)) :=
  fun io s => pinEvent_eq io _ _ s

/-- No reset is to come within the listed port samples. -/
def Unreset (p : State) : Prop := ∀ io ∈ p.inputs, unreset io = true

section Follow

variable {α : Type} {fin : α → State → State} {p : State} {x : Phase} {w : Word} {n : BitVec 5} {a : Byte}

/-- One pin event of the pseudocode and the step of the phase that makes it: both wait for a port sample, or both fail,
or both go on (R66, R225). -/
theorem runsAs_event {event : PortSample → State → Except State State} {bad : PinEvent}
    {done : PortSample → State → State} {k : Level → State → Micro α} (hevent : IsPrimitive event bad done)
    (hbusy : x ≠ .idle) (hbad : phaseEventFailed (onSequencer x w n a p) = [bad]) (hp : Unreset p)
    (hok : ∀ io rest, p.inputs = io :: rest → smooth io = true → Unreset (withInputs rest p) →
      ∃ q, step (onSequencer x w n a p) = .next q ∧
        RunsAs (endWith (k io.dout (done io (withInputs rest p))) fin) q) :
    RunsAs (endWith (andThen (microEvent event p) k) fin) (onSequencer x w n a p) := by
  cases hin : p.inputs with
  | nil =>
    simp only [microEvent, hin]
    exact runsAs_waiting hbusy hin
  | cons io rest =>
    rw [Unreset, hin, List.forall_mem_cons] at hp
    obtain ⟨hio, hrest⟩ := hp
    have hrst : io.rst = false := by simpa [unreset] using hio
    simp only [microEvent, hin]
    rw [hevent]
    cases hfail : io.ioFail with
    | false =>
      obtain ⟨q, hstep, hrun⟩ := hok io rest hin (smooth_iff.mpr ⟨hrst, hfail⟩) hrest
      exact runsAs_step hbusy hin hstep hrun
    | true =>
      refine runsAs_step hbusy hin (step_failed hbusy hin hrst hfail) (runsAs_ended rfl ?_)
      rw [hbad]
      exact sameCommandEnd_onSequencer .idle w n a _

end Follow

end Sys2Proof.Proofs
end

