-- ==== Sys2Proof/Proofs/PseudocodeFrame.lean ====
section
/-! R226 for a frame read: the poll, the bit slot, and the loops of `readByte` and `readFrame` (R121, R140 to R146, R190)
against the phases POLL, CK_HI, CK_LO and SMP (R217 to R221). -/

namespace Sys2Proof.Proofs

open Sys2Proof.Machine Sys2Proof.Safety

section Follow

variable {α : Type} {fin : α → State → State} {p : State} {x : Phase} {w : Word} {n : BitVec 5} {a : Byte}

/-- A frame can be read at `p`: `total` is defined, and no reset is to come. -/
structure Readable (total : Nat) (p : State) : Prop where
  total_eq : totalPulses p.chan p.gain = some total
  unreset : Unreset p

/-- The poll of R190 and phase POLL (R217). -/
theorem runsAs_polls {total : Nat} {k : Unit → State → Micro α} (hp : Readable total p)
    (hnext : ∀ p', Readable total p' → RunsAs (endWith (k () p') fin) (onSequencer .ckHi w n a p')) :
    RunsAs (endWith (andThen (pollUntilReady p.inputs.length p) k) fin) (onSequencer .poll w n a p) := by
  induction hlist : p.inputs generalizing p with
  | nil => exact runsAs_waiting (by simp [onSequencer]) hlist
  | cons io rest ih =>
    simp only [List.length_cons, pollUntilReady, isDataReady, andThen_assoc]
    refine runsAs_event (isPrimitive_pinRead _) (by simp) rfl hp.unreset fun io' rest' hin hio hrest => ?_
    obtain ⟨rfl, rfl⟩ : io = io' ∧ rest = rest' := by simpa [hlist] using hin
    have hread : Readable total ((withInputs rest p).log (.read p.datpin io.dout)) := ⟨hp.total_eq, hrest⟩
    refine ⟨onSequencer (if dataReady io.dout then .ckHi else .poll) w n a
      ((withInputs rest p).log (.read p.datpin io.dout)), step_poll rfl hin hio, ?_⟩
    cases hready : dataReady io.dout with
    | true => exact hnext _ hread
    | false => exact ih hread rfl

/-- The rising edge (R218). -/
theorem runsAs_ckHi {total : Nat} {k : Level → State → Micro α} (hp : Readable total p)
    (hnext : ∀ v p', Readable total p' → p'.acc = p.acc →
      RunsAs (endWith (k v p') fin) (onSequencer .ckLo w n a p')) :
    RunsAs (endWith (andThen (microWrite p.clkpin true p) k) fin) (onSequencer .ckHi w n a p) :=
  runsAs_event (isPrimitive_pinWrite _ _) (by simp) rfl hp.unreset fun io rest hin hio hrest =>
    ⟨onSequencer .ckLo w n a (written p.clkpin true (withInputs rest p)), step_ckHi rfl hin hio,
      hnext io.dout _ ⟨hp.total_eq, hrest⟩ rfl⟩

/-- The falling edge (R219). -/
theorem runsAs_ckLo {total : Nat} {k : Level → State → Micro α} (hp : Readable total p)
    (hnext : ∀ v p', Readable total p' → p'.acc = p.acc →
      RunsAs (endWith (k v p') fin) (onSequencer .smp w n a p')) :
    RunsAs (endWith (andThen (microWrite p.clkpin false p) k) fin) (onSequencer .ckLo w n a p) :=
  runsAs_event (isPrimitive_pinWrite _ _) (by simp) rfl hp.unreset fun io rest hin hio hrest =>
    ⟨onSequencer .smp w n a (written p.clkpin false (withInputs rest p)), step_ckLo rfl hin hio,
      hnext io.dout _ ⟨hp.total_eq, hrest⟩ rfl⟩

/-- What the sequencer does at the end of a bit slot, the bit `b` sampled, runs as `m` (R220). -/
def SlotRunsAs (m : Option State) (b : Level) (q : State) : Prop :=
  ∃ q', nextSlot (q.assembleBit b).countPulse = .next q' ∧ RunsAs m q'

/-- The sample of the data pin (R220). -/
theorem runsAs_smp {total : Nat} {k : Level → State → Micro α} (hp : Readable total p)
    (hnext : ∀ b p', Readable total p' → p'.acc = p.acc →
      SlotRunsAs (endWith (k b p') fin) b (onSequencer .smp w n a p')) :
    RunsAs (endWith (andThen (microRead p.datpin p) k) fin) (onSequencer .smp w n a p) := by
  refine runsAs_event (isPrimitive_pinRead _) (by simp) rfl hp.unreset fun io rest hin hio hrest => ?_
  obtain ⟨q, hslot, hrun⟩ :=
    hnext io.dout ((withInputs rest p).log (.read p.datpin io.dout)) ⟨hp.total_eq, hrest⟩ rfl
  exact ⟨q, (step_smp (s := onSequencer .smp w n a p) rfl hin hio).trans hslot, hrun⟩

/-- `readBit` and the phases of a bit slot, up to the sampled bit (R121, R218 to R220). -/
theorem runsAs_readBit {total : Nat} {k : Level → State → Micro α} (hp : Readable total p)
    (hnext : ∀ b p', Readable total p' → p'.acc = p.acc →
      SlotRunsAs (endWith (k b p') fin) b (onSequencer .smp w n a p')) :
    RunsAs (endWith (andThen (readBit p) k) fin) (onSequencer .ckHi w n a p) := by
  simp only [readBit, pulse, andThen_assoc]
  refine runsAs_ckHi hp fun _ p1 hp1 hacc1 => ?_
  refine runsAs_ckLo hp1 fun _ p2 hp2 hacc2 => ?_
  exact runsAs_smp hp2 fun b p3 hp3 hacc3 => hnext b p3 hp3 (hacc3.trans (hacc2.trans hacc1))

/-- One round of readByte's loop (R140). -/
def takeBit (b : Level) (p : State) : State := { p with acc := orderStep p.bitord p.acc b }

/-- readFrame's `BYTES[j] <- ACC` (R144). -/
def storeByte (j : Nat) (p : State) : State := { p with bytes := p.bytes.set j p.acc }

theorem countPulse_onSequencer {i : Nat} :
    (onSequencer x w (BitVec.ofNat 5 i) a p).countPulse = onSequencer x w (BitVec.ofNat 5 (i + 1)) a p := by
  simp [onSequencer, State.countPulse, BitVec.ofNat_add]

/-- PCNT holds every count up to the total (R32). -/
theorem toNat_pcnt {i : Nat} (hi : i < 32) : (onSequencer x w (BitVec.ofNat 5 i) a p).pcnt.toNat = i :=
  Nat.mod_eq_of_lt hi

section Slot

variable {total i : Nat} (hp : Readable total p) (b : Level)

include hp

/-- A slot that is not the last leads to the next (R220). -/
theorem nextSlot_onSequencer (hi : i < total) :
    nextSlot (onSequencer .smp w (BitVec.ofNat 5 i) a p) = .next (onSequencer .ckHi w (BitVec.ofNat 5 i) a p) := by
  have hmax := totalPulses_le hp.total_eq
  exact nextSlot_continue hp.total_eq (by rw [toNat_pcnt (by omega)]; omega)

/-- A data slot within its byte. -/
theorem nextSlot_takeBit (hi : i < 24) (h7 : i % 8 ≠ 7) :
    nextSlot ((onSequencer .smp w (BitVec.ofNat 5 i) p.acc p).assembleBit b).countPulse =
      .next (onSequencer .ckHi w (BitVec.ofNat 5 (i + 1)) (takeBit b p).acc (takeBit b p)) := by
  have hmin := twentyFive_le_totalPulses hp.total_eq
  have hcount : (onSequencer .smp w (BitVec.ofNat 5 i) p.acc p).pcnt.toNat = i := toNat_pcnt (by omega)
  have hbit : (onSequencer .smp w (BitVec.ofNat 5 i) p.acc p).assembleBit b =
      onSequencer .smp w (BitVec.ofNat 5 i) (takeBit b p).acc (takeBit b p) :=
    assembleBit_shift (by rwa [hcount]) (by rwa [hcount]) b
  rw [hbit, countPulse_onSequencer]
  exact nextSlot_onSequencer ⟨hp.total_eq, hp.unreset⟩ (by omega)

/-- The last data slot of a byte. -/
theorem nextSlot_storeByte (hi : i < 24) (h7 : i % 8 = 7) :
    nextSlot ((onSequencer .smp w (BitVec.ofNat 5 i) p.acc p).assembleBit b).countPulse =
      .next (onSequencer .ckHi w (BitVec.ofNat 5 (i + 1)) 0#8 (storeByte (i / 8) (takeBit b p))) := by
  have hmin := twentyFive_le_totalPulses hp.total_eq
  have hcount : (onSequencer .smp w (BitVec.ofNat 5 i) p.acc p).pcnt.toNat = i := toNat_pcnt (by omega)
  have hbit : (onSequencer .smp w (BitVec.ofNat 5 i) p.acc p).assembleBit b =
      onSequencer .smp w (BitVec.ofNat 5 i) 0#8 (storeByte (i / 8) (takeBit b p)) := by
    rw [assembleBit_store (by rwa [hcount]) (by rwa [hcount]), hcount]
    rfl
  rw [hbit, countPulse_onSequencer]
  exact nextSlot_onSequencer ⟨hp.total_eq, hp.unreset⟩ (by omega)

/-- An idle slot only counts (R146). -/
theorem assembleBit_onSequencer_idle (hi : 24 ≤ i) (hlast : i < total) :
    (onSequencer .smp w (BitVec.ofNat 5 i) a p).assembleBit b = onSequencer .smp w (BitVec.ofNat 5 i) a p := by
  have hmax := totalPulses_le hp.total_eq
  exact assembleBit_discard (by rw [toNat_pcnt (by omega)]; omega) b

/-- An idle slot, not the last. -/
theorem nextSlot_idle (hi : 24 ≤ i) (hlast : i + 1 < total) :
    nextSlot ((onSequencer .smp w (BitVec.ofNat 5 i) a p).assembleBit b).countPulse =
      .next (onSequencer .ckHi w (BitVec.ofNat 5 (i + 1)) a p) := by
  rw [assembleBit_onSequencer_idle hp b hi (by omega), countPulse_onSequencer, nextSlot_onSequencer hp hlast]

/-- The last slot. -/
theorem nextSlot_last (hi : 24 ≤ i) (hlast : i + 1 = total) :
    nextSlot ((onSequencer .smp w (BitVec.ofNat 5 i) a p).assembleBit b).countPulse =
      endFrame (onSequencer .smp w (BitVec.ofNat 5 total) a p) := by
  have hmax := totalPulses_le hp.total_eq
  rw [assembleBit_onSequencer_idle hp b hi (by omega), countPulse_onSequencer, hlast]
  exact nextSlot_end hp.total_eq (toNat_pcnt (by omega))

end Slot

/-- Data slots to the end of their byte, `m + 1` of them: ACC goes alike on both sides, and the last slot stores the
byte and clears the sequencer's ACC (R140, R220). -/
theorem runsAs_readBits {total i m : Nat} {k : Unit → State → Micro α} (hi : i < 24) (hm : i % 8 + m = 7)
    (hp : Readable total p)
    (hnext : ∀ p', Readable total p' →
      RunsAs (endWith (k () p') fin)
        (onSequencer .ckHi w (BitVec.ofNat 5 (8 * (i / 8) + 8)) 0#8 (storeByte (i / 8) p'))) :
    RunsAs (endWith (andThen (readBits (m + 1) p) k) fin) (onSequencer .ckHi w (BitVec.ofNat 5 i) p.acc p) := by
  induction m generalizing i p with
  | zero =>
    rw [readBits, andThen_assoc]
    refine runsAs_readBit hp fun b p' hp' hacc => ⟨_, ?_, hnext (takeBit b p') ⟨hp'.total_eq, hp'.unreset⟩⟩
    have h8 : 8 * (i / 8) + 8 = i + 1 := by omega
    rw [← hacc, nextSlot_storeByte hp' b hi (by omega), h8]
  | succ m ih =>
    rw [readBits, andThen_assoc]
    refine runsAs_readBit hp fun b p' hp' hacc =>
      ⟨_, ?_, ih (i := i + 1) (p := takeBit b p') (by omega) (by omega) ⟨hp'.total_eq, hp'.unreset⟩ ?_⟩
    · rw [← hacc, nextSlot_takeBit hp' b hi (by omega)]
    · have hbyte : (i + 1) / 8 = i / 8 := by omega
      rwa [hbyte]

/-- `readByte` into BYTES[j] (R140, R144). -/
theorem runsAs_readByteInto {total j : Nat} {k : Unit → State → Micro α} (hj : j < 3) (hp : Readable total p)
    (hnext : ∀ p', Readable total p' →
      RunsAs (endWith (k () p') fin) (onSequencer .ckHi w (BitVec.ofNat 5 (8 * j + 8)) 0#8 p')) :
    RunsAs (endWith (andThen (readByteInto j p) k) fin) (onSequencer .ckHi w (BitVec.ofNat 5 (8 * j)) 0#8 p) := by
  simp only [readByteInto, readByte, andThen_assoc]
  have hbyte : 8 * j / 8 = j := by omega
  refine runsAs_readBits (p := { p with acc := 0#8 }) (i := 8 * j) (m := 7) (by omega) (by omega)
    ⟨hp.total_eq, hp.unreset⟩ fun p' hp' => ?_
  rw [hbyte]
  exact hnext (storeByte j p') ⟨hp'.total_eq, hp'.unreset⟩

/-- The idle slots from slot `i` to the last, `m + 1` of them (R146). -/
theorem runsAs_idleBits {total i m : Nat} {k : Unit → State → Micro α} (hi : 24 ≤ i) (hm : i + (m + 1) = total)
    (hp : Readable total p)
    (hend : ∀ p', ∃ q, endFrame (onSequencer .smp w (BitVec.ofNat 5 total) a p') = .next q ∧
      RunsAs (endWith (k () p') fin) q) :
    RunsAs (endWith (andThen (idleBits (m + 1) p) k) fin) (onSequencer .ckHi w (BitVec.ofNat 5 i) a p) := by
  induction m generalizing i p with
  | zero =>
    rw [idleBits, andThen_assoc]
    refine runsAs_readBit hp fun b p' hp' _ => ?_
    rw [SlotRunsAs, nextSlot_last hp' b hi hm]
    exact hend p'
  | succ m ih =>
    rw [idleBits, andThen_assoc]
    exact runsAs_readBit hp fun b p' hp' _ =>
      ⟨_, nextSlot_idle hp' b hi (by omega), ih (i := i + 1) (by omega) (by omega) hp'⟩

/-- `readFrame` from the frame's first rising edge (R144): three bytes, then the idle slots, of which there is at least
one, the last ending the frame. -/
theorem runsAs_readFrame {total : Nat} {k : Frame → State → Micro α} (hp : Readable total p)
    (hend : ∀ p', ∃ q, endFrame (onSequencer .smp w (BitVec.ofNat 5 total) 0#8 p') = .next q ∧
      RunsAs (endWith (k (pack p'.bytes p'.byteord) { p' with frame := pack p'.bytes p'.byteord }) fin) q) :
    RunsAs (endWith (andThen (readFrame p) k) fin) (onSequencer .ckHi w 0#5 0#8 p) := by
  simp only [readFrame, andThen_assoc]
  refine runsAs_readByteInto (j := 0) (by decide) hp fun p1 hp1 => ?_
  refine runsAs_readByteInto (j := 1) (by decide) hp1 fun p2 hp2 => ?_
  refine runsAs_readByteInto (j := 2) (by decide) hp2 fun p3 hp3 => ?_
  obtain ⟨idle, hidle, hsum⟩ := totalPulses_eq_some.mp hp3.total_eq
  have hmin := twentyFive_le_totalPulses hp3.total_eq
  obtain ⟨m, rfl⟩ : ∃ m, idle = m + 1 := ⟨idle - 1, by omega⟩
  rw [hidle]
  exact runsAs_idleBits (i := 24) le_rfl hsum hp3 hend

/-- `acquire` from the start of a frame read (R190, R216). -/
theorem runsAs_acquire {total : Nat} {k : Frame → State → Micro α} (hp : Readable total p)
    (hend : ∀ p', ∃ q, endFrame (onSequencer .smp w (BitVec.ofNat 5 total) 0#8 p') = .next q ∧
      RunsAs (endWith (k (pack p'.bytes p'.byteord) { p' with frame := pack p'.bytes p'.byteord }) fin) q) :
    RunsAs (endWith (andThen (acquire p) k) fin) (onSequencer .poll w 0#5 0#8 p) := by
  simp only [acquire, Config.acqWait, if_true, andThen_assoc]
  exact runsAs_polls hp fun p' hp' => runsAs_readFrame hp' hend

end Follow

end Sys2Proof.Proofs
end

