-- ==== Sys2Proof/Proofs/PseudocodeCommands.lean ====
section
/-! R226 for every command: the checks, then the command's pin events, on both sides. -/

namespace Sys2Proof.Proofs

open Sys2Proof.Machine Sys2Proof.Safety

section Initialising

variable {α : Type} {fin : α → State → State} {p : State} {w : Word} {n : BitVec 5} {a : Byte}

/-- INIT's first event (R213). -/
theorem runsAs_iOut {k : Level → State → Micro α} (hp : Unreset p)
    (hnext : ∀ v p', Unreset p' → RunsAs (endWith (k v p') fin) (onSequencer .iIn w n a p')) :
    RunsAs (endWith (andThen (microCfgOut (clockPinField w) p) k) fin) (onSequencer .iOut w n a p) :=
  runsAs_event (isPrimitive_pinCfgOut _) (by simp) rfl hp fun io rest hin hio hrest =>
    ⟨onSequencer .iIn w n a ((withInputs rest p).log (.cfgOut (clockPinField w))), step_iOut rfl hin hio,
      hnext io.dout _ hrest⟩

/-- INIT's second event (R214). -/
theorem runsAs_iIn {k : Level → State → Micro α} (hp : Unreset p)
    (hnext : ∀ v p', Unreset p' → RunsAs (endWith (k v p') fin) (onSequencer .iWr w n a p')) :
    RunsAs (endWith (andThen (microCfgIn (dataPinField w) p) k) fin) (onSequencer .iIn w n a p) :=
  runsAs_event (isPrimitive_pinCfgIn _) (by simp) rfl hp fun io rest hin hio hrest =>
    ⟨onSequencer .iWr w n a ((withInputs rest p).log (.cfgIn (dataPinField w))), step_iIn rfl hin hio,
      hnext io.dout _ hrest⟩

end Initialising

section Commands

variable {s : State} {w : Word} {n : BitVec 5} {a : Byte} (hunreset : Unreset s)

/-- The checks are the same on both sides, and so is what a failing one answers (R238). -/
theorem runsAs_checked {check : Option CmdError} {body : State → Option State} {start : State → State}
    (h : check = none → RunsAs (body s.beginCommand) (start s.beginCommand)) :
    RunsAs (checked check body s) (s.checked check start) := by
  cases check with
  | none => exact h rfl
  | some e => exact runsAs_answered _ _ _

include hunreset

/-- INIT under the word `w` (R170, R213 to R215). -/
theorem runsAs_performInit (w : Word) :
    RunsAs
      (performInit (clockPinField w) (dataPinField w) (initGainField w) (initChannelField w) (bitOrderField w)
        (byteOrderField w) s)
      (s.checked ((lifecycleCheck .unconfigured s).or ((gainCheck (initGainField w)).or
        (pairCheck (initChannelField w) (initGainField w)))) (fun t => onSequencer .iOut w t.pcnt t.acc t)) := by
  refine runsAs_checked fun _ => runsAs_iOut hunreset fun _ p1 hp1 => ?_
  rw [← andThen_done (andThen _ _), andThen_assoc]
  refine runsAs_iIn hp1 fun _ p2 hp2 => runsAs_event (isPrimitive_pinWrite _ _) (by simp) rfl hp2 ?_
  exact fun io rest hin hio _ =>
    ⟨_, step_iWr rfl hin hio, runsAs_ended rfl (sameCommandEnd_onSequencer .idle w _ _ _)⟩

/-- RDY (R191, R222). -/
theorem runsAs_performRdy :
    RunsAs (performRdy s) (s.checked (lifecycleCheck .configured s) (fun t => onSequencer .qRd w n a t)) := by
  refine runsAs_checked fun _ => runsAs_event (isPrimitive_pinRead _) (by simp) rfl hunreset ?_
  exact fun io rest hin hio _ =>
    ⟨_, step_qRd rfl hin hio, runsAs_ended rfl (sameCommandEnd_onSequencer .idle w n a _)⟩

/-- PWRDN's write, from Active (R200, R223). -/
theorem runsAs_dWr :
    RunsAs (endWith (microWrite s.clkpin true s) (fun _ t => { t with pwr := .poweredDown }.respond okCode 0#32))
      (onSequencer .dWr w n a s) := by
  rw [← andThen_done (microWrite _ _ _)]
  exact runsAs_event (isPrimitive_pinWrite _ _) (by simp) rfl hunreset fun io rest hin hio _ =>
    ⟨_, step_dWr rfl hin hio, runsAs_ended rfl (sameCommandEnd_onSequencer .idle w n a _)⟩

/-- PWRUP's write and flush, from PoweredDown (R201, R224). -/
theorem runsAs_uWr {total : Nat} (htotal : totalPulses s.chan s.gain = some total) :
    RunsAs
      (endWith (andThen (microWrite s.clkpin false s) fun _ s1 => acquire { s1 with pwr := .active })
        (fun _ t => t.respond okCode 0#32))
      (onSequencer .uWr (encode .pwrup) n a s) := by
  refine runsAs_event (isPrimitive_pinWrite _ _) (by simp) rfl hunreset fun io rest hin hio hrest =>
    ⟨_, step_uWr rfl hin hio, ?_⟩
  rw [← andThen_done (acquire _)]
  exact runsAs_acquire (p := { written s.clkpin false (withInputs rest s) with pwr := .active }) ⟨htotal, hrest⟩
    fun p' => ⟨_, endFrame_pwrup rfl, runsAs_ended rfl (sameCommandEnd_onSequencer .idle _ _ _ _)⟩

/-- RDRAW's frame read (R192, R221). -/
theorem runsAs_rdraw {total : Nat} (htotal : totalPulses s.chan s.gain = some total) :
    RunsAs (endWith (acquire s) (fun f t => { t with sample := decodeFrame f }.respond okCode (decodeFrame f)))
      (onSequencer .poll (encode .rdraw) 0#5 0#8 s) := by
  simp only [decodeFrame_eq_signExtend]
  rw [← andThen_done (acquire _)]
  exact runsAs_acquire ⟨htotal, hunreset⟩ fun p' =>
    ⟨_, endFrame_rdraw rfl, runsAs_ended rfl (sameCommandEnd_onSequencer .idle _ _ _ _)⟩

end Commands

/-- R226 for every command: acceptance leaves the sequencer where its run comes out as the pseudocode does. -/
theorem runsAs_perform {i : Instr} {s : State} (hunreset : Unreset s)
    (hpair : s.life = .configured → validPair s.chan s.gain = true) :
    RunsAs (perform i s) (s.checked (checksOf i s) (startOf i)) := by
  have htotal (hlife : lifecycleCheck .configured s = none) : ∃ total, totalPulses s.chan s.gain = some total := by
    obtain ⟨total, h, -⟩ := totalPulses_of_valid (hpair (lifecycleCheck_eq_none.mp hlife))
    exact ⟨total, h⟩
  cases i with
  | init p q g c bo yo =>
    have h := runsAs_performInit hunreset (encode (.init p q g c bo yo))
    simp only [clockPinField_encode_init, dataPinField_encode_init, initGainField_encode_init,
      initChannelField_encode_init, bitOrderField_encode_init, byteOrderField_encode_init] at h
    exact h
  | setgain | getgain | setchan | getchan =>
    simp only [perform, performSetgain, performGetgain, performSetchan, performGetchan, checksOf]
    exact runsAs_checked fun _ => runsAs_answered _ _ _
  | rdy => exact runsAs_performRdy (n := s.pcnt) (a := s.acc) hunreset
  | rdraw =>
    simp only [perform, performRdraw, checksOf]
    refine runsAs_checked fun hcheck => ?_
    obtain ⟨total, htotal⟩ := htotal (Option.or_eq_none_iff.mp hcheck).1
    exact runsAs_rdraw (s := s.beginCommand) hunreset htotal
  | pwrdn =>
    simp only [perform, performPwrdn, checksOf]
    refine runsAs_checked fun _ => ?_
    cases hpwr : s.pwr with
    | poweredDown =>
      simp only [startOf, State.beginCommand_pwr, hpwr, if_true]
      exact runsAs_answered _ _ _
    | active =>
      simp only [startOf, State.beginCommand_pwr, hpwr, reduceCtorEq, if_false]
      exact runsAs_dWr (s := s.beginCommand) hunreset
  | pwrup =>
    simp only [perform, performPwrup, checksOf]
    refine runsAs_checked fun hlife => ?_
    obtain ⟨total, htotal⟩ := htotal hlife
    cases hpwr : s.pwr with
    | active =>
      simp only [startOf, State.beginCommand_pwr, hpwr, if_true]
      exact runsAs_answered _ _ _
    | poweredDown =>
      simp only [startOf, State.beginCommand_pwr, hpwr, reduceCtorEq, if_false]
      exact runsAs_uWr (s := s.beginCommand) hunreset htotal

/-- Settles O34: the case of `RunsAs` in which the pseudocode ends. -/
theorem sequencerAgreesWithPseudocode : Obligations.SequencerAgreesWithPseudocode := by
  unfold Obligations.SequencerAgreesWithPseudocode
  intro i s t _ hpair hunreset hperform
  have hexec := exec_eq_checked i s
  have hrun : RunsAs (some t) _ := hperform ▸ runsAs_perform (i := i) hunreset hpair
  obtain ⟨n, u, hn, hu, hph, hend⟩ := hrun
  exact ⟨n, _, u, hexec, by rwa [← exec_inputs hexec], hu, hph, hend⟩

/-- Settles O35: the case of `RunsAs` in which it does not. -/
theorem sequencerWaitsWithPseudocode : Obligations.SequencerWaitsWithPseudocode := by
  unfold Obligations.SequencerWaitsWithPseudocode
  intro i s _ hpair hunreset hperform
  have hexec := exec_eq_checked i s
  have hrun : RunsAs none _ := hperform ▸ runsAs_perform (i := i) hunreset hpair
  exact ⟨_, hexec, fun n hn => hrun n (by rwa [exec_inputs hexec])⟩

end Sys2Proof.Proofs
end

