-- ==== Sys2Proof/Proofs/EncodingRoundTrip.lean ====
section
/-! Words and commands correspond one to one (R95 to R103): a command's operands are read back from its word, and a word
is put together again from the fields the decoder reads and the reserved bits. -/

namespace Sys2Proof.Proofs

open Sys2Proof.Machine Sys2Proof.Safety
open Sys2Proof.Laws.OpcodeField (opcodeOf)

/-- SETGAIN's gain is read back from its word (R97). -/
@[simp] theorem gainField_encode_setgain (g : Gain) : gainField (encode (.setgain g)) = g := by
  unfold gainField encode
  refine BitVec.eq_of_getLsbD_eq fun j hj => ?_
  simp [hj, show j < 32 by omega, show ¬ 28 ≤ j by omega]

/-- SETGAIN's word decodes to SETGAIN with its gain (R97, R103). -/
theorem decode_encode_setgain (g : Gain) : decode (encode (.setgain g)) = .command (.setgain g) := by
  have hop : (opField (encode (.setgain g))).toNat = 2 := congrArg BitVec.toNat (Laws.OpcodeField.setgain g)
  have hreserved : (encode (.setgain g)).extractLsb' 8 20 = 0#20 := by
    unfold encode
    ext j hj
    simp [show 8 + j < 32 by omega, show ¬ 28 ≤ 8 + j by omega]
  simp [decode, hop, hreserved]

/-- SETCHAN's word decodes to SETCHAN with its channel (R98, R103). -/
theorem decode_encode_setchan (c : Channel) : decode (encode (.setchan c)) = .command (.setchan c) := by
  cases c with
  | a => decide
  | b => decide

/-- Settles O1: the operands are read back from the word; a command without operands has one word. -/
theorem decodeEncodeRoundTrip : Obligations.DecodeEncodeRoundTrip := by
  unfold Obligations.DecodeEncodeRoundTrip
  intro i
  cases i with
  | init p q g c bo yo => exact decode_encode_init p q g c bo yo
  | setgain g => exact decode_encode_setgain g
  | setchan c => exact decode_encode_setchan c
  | getgain | getchan | rdy | rdraw | pwrdn | pwrup => decide

/-- A one-bit field is the word's bit there. -/
theorem extractLsb'_one (w : Word) (lo : Nat) : w.extractLsb' lo 1 = BitVec.ofBool (w.getLsbD lo) := by
  refine BitVec.eq_of_getLsbD_eq fun j hj => ?_
  obtain rfl : j = 0 := by omega
  simp

/-- The channel's code is the bit the channel is read from (R100). -/
theorem code_channelOfBit_getLsbD (w : Word) (lo : Nat) : (channelOfBit (w.getLsbD lo)).code = w.extractLsb' lo 1 := by
  rw [extractLsb'_one]
  cases w.getLsbD lo <;> rfl

/-- The order's code is the bit the order is read from (R100). -/
theorem code_orderOfBit_getLsbD (w : Word) (lo : Nat) : (orderOfBit (w.getLsbD lo)).code = w.extractLsb' lo 1 := by
  rw [extractLsb'_one]
  cases w.getLsbD lo <;> rfl

/-- Masks that cover the word keep it. -/
theorem and_eq_self_of_eq_allOnes {m : Word} (hm : m = BitVec.allOnes 32) (w : Word) : w &&& m = w := by
  rw [hm, BitVec.and_allOnes]

/-- A word in format N: op and 28 reserved bits (R99). -/
theorem or_fieldsN (w : Word) : placeAt 28 (opField w) ||| placeAt 0 (w.extractLsb' 0 28) = w := by
  simp only [opField, ← and_placeAt_allOnes, ← BitVec.and_or_distrib_left]
  exact and_eq_self_of_eq_allOnes (by decide) w

/-- A word in format C: op, channel, 27 reserved bits (R98). -/
theorem or_fieldsC (w : Word) :
    placeAt 28 (opField w) ||| placeAt 0 (channelField w).code ||| placeAt 1 (w.extractLsb' 1 27) = w := by
  simp only [opField, channelField, code_channelOfBit_getLsbD, ← and_placeAt_allOnes, ← BitVec.and_or_distrib_left]
  exact and_eq_self_of_eq_allOnes (by decide) w

/-- A word in format G: op, gain, 20 reserved bits (R97). -/
theorem or_fieldsG (w : Word) :
    placeAt 28 (opField w) ||| placeAt 0 (gainField w) ||| placeAt 8 (w.extractLsb' 8 20) = w := by
  simp only [opField, gainField, ← and_placeAt_allOnes, ← BitVec.and_or_distrib_left]
  exact and_eq_self_of_eq_allOnes (by decide) w

/-- A word in format I: op, the six operands, one reserved bit (R96). -/
theorem or_fieldsI (w : Word) :
    placeAt 28 (opField w) ||| placeAt 20 (clockPinField w) ||| placeAt 12 (dataPinField w) |||
      placeAt 4 (initGainField w) ||| placeAt 3 (initChannelField w).code ||| placeAt 2 (bitOrderField w).code |||
      placeAt 1 (byteOrderField w).code ||| placeAt 0 (w.extractLsb' 0 1) = w := by
  simp only [opField, clockPinField, dataPinField, initGainField, initChannelField, bitOrderField, byteOrderField,
    code_channelOfBit_getLsbD, code_orderOfBit_getLsbD, ← and_placeAt_allOnes, ← BitVec.and_or_distrib_left]
  exact and_eq_self_of_eq_allOnes (by decide) w

/-- A field that is 0 adds nothing to a word. -/
theorem or_placeAt_eq_of_eq_zero {lo n : Nat} {a w : Word} {b : BitVec n} (h : a ||| placeAt lo b = w) (hb : b = 0#n) :
    a = w := by
  simpa [hb, placeAt] using h

/-- Settles O2: the word is the or of its op and operands, the reserved bits of the command's format being 0. -/
theorem encodeDecodeRoundTrip : Obligations.EncodeDecodeRoundTrip := by
  unfold Obligations.EncodeDecodeRoundTrip
  intro w i h
  obtain ⟨hop, hres⟩ := fitsFormat_of_decode h
  cases i with
  | init p q g c bo yo =>
    obtain ⟨-, rfl, rfl, rfl, rfl, rfl, rfl⟩ : _ ∧ clockPinField w = p ∧ dataPinField w = q ∧ initGainField w = g ∧
        initChannelField w = c ∧ bitOrderField w = bo ∧ byteOrderField w = yo := by
      simpa [decode, hop, opcodeOf] using h
    exact or_placeAt_eq_of_eq_zero (hop ▸ or_fieldsI w) ((getLsbD_zero_eq_false_iff w).mp hres)
  | setgain g =>
    obtain ⟨-, rfl⟩ : _ ∧ gainField w = g := by simpa [decode, hop, opcodeOf] using h
    exact or_placeAt_eq_of_eq_zero (hop ▸ or_fieldsG w) hres
  | setchan c =>
    obtain ⟨-, rfl⟩ : _ ∧ channelField w = c := by simpa [decode, hop, opcodeOf] using h
    exact or_placeAt_eq_of_eq_zero (hop ▸ or_fieldsC w) hres
  | getgain | getchan | rdy | rdraw | pwrdn | pwrup =>
    exact or_placeAt_eq_of_eq_zero (hop ▸ or_fieldsN w) hres

/-- Settles O5: the decoder is evaluated on the ten words. -/
theorem specWordsDecode : Obligations.SpecWordsDecode := by
  unfold Obligations.SpecWordsDecode
  decide

end Sys2Proof.Proofs
end

