-- ==== Sys2Proof/Proofs/Refusals.lean ====
section
/-! The checks on an accepted word (R238) and what a refused word leaves (R240, R241): a command's checks come in the
order that `refusalOf` states, a refusal is an answer and nothing else, and a command that passes is never answered with
an error in its acceptance step. -/

namespace Sys2Proof.Proofs

open Sys2Proof.Machine Sys2Proof.Safety

/-- The lifecycle check comes before a command's other checks (R238). -/
theorem lifecycleCheck_or_eq (want : Life) (s : State) (later : Option CmdError) :
    (lifecycleCheck want s).or later = if s.life ≠ want then some .state else later := by
  by_cases h : s.life = want <;> simp [lifecycleCheck, h]

/-- The operand checks fail exactly on what R232 rejects. -/
theorem gainCheck_or_pairCheck_eq (c : Channel) (g : Gain) :
    (gainCheck g).or (pairCheck c g) =
      if !(decide (g = 32#8 ∨ g = 64#8 ∨ g = 128#8) && decide (inTable c g)) then some .config else none := by
  by_cases h : inTable c g
  · obtain ⟨hgain, hpair⟩ := gainCheck_pairCheck_of_inTable h
    rw [hgain, hpair, decide_eq_true h, decide_eq_true (gainCheck_eq_none.mp hgain)]
    rfl
  · rw [gainCheck_or_pairCheck_of_not_inTable h, decide_eq_false h, Bool.and_false]
    rfl

theorem pairCheck_eq (c : Channel) (g : Gain) :
    pairCheck c g = if !decide (inTable c g) then some .config else none := by
  by_cases h : inTable c g
  · rw [(gainCheck_pairCheck_of_inTable h).2, decide_eq_true h]
    rfl
  · rw [pairCheck_of_not_inTable h, decide_eq_false h]
    rfl

/-- A command's checks in order: lifecycle, power gate, operand values (R238). -/
theorem checksOf_eq (i : Instr) (s : State) :
    checksOf i s =
      if s.life ≠ lifeWanted i then some .state
      else if i = .rdraw ∧ s.pwr = .poweredDown then some .state
      else if operandsRejected s i then some .config
      else none := by
  cases i with
  | init | setgain => simp [checksOf, lifecycleCheck_or_eq, gainCheck_or_pairCheck_eq, lifeWanted, operandsRejected]
  | setchan => simp [checksOf, lifecycleCheck_or_eq, pairCheck_eq, lifeWanted, operandsRejected]
  | rdraw => simp [checksOf, lifecycleCheck_or_eq, powerGate, lifeWanted, operandsRejected]
  | getgain | getchan | rdy | pwrdn | pwrup => simp [checksOf, lifecycleCheck, lifeWanted, operandsRejected]

theorem exec_of_check {i : Instr} {s : State} {e : CmdError} (h : checksOf i s = some e) :
    exec i s = .next (answered e.code 0#32 s) := by
  rw [exec_eq_checked, h]
  rfl

theorem exec_of_no_check {i : Instr} {s : State} (h : checksOf i s = none) :
    exec i s = .next (startOf i s.beginCommand) := by
  rw [exec_eq_checked, h]
  rfl

/-- A command that has passed its checks either goes on, with no response yet, or is answered OK (R212). -/
theorem startOf_cases {i : Instr} {s t : State} (ht : t = startOf i s.beginCommand) :
    t.ph ≠ .idle ∧ t.rspValid = false ∧ t.responses = s.responses ∨
      t.ph = .idle ∧ t.rspValid = true ∧ t.rspStatus = 0#4 ∧ ∃ d, t.responses = s.responses ++ [⟨0#4, d⟩] := by
  subst ht
  cases i with
  | init | rdy | rdraw => exact .inl ⟨nofun, rfl, rfl⟩
  | setgain | getgain | setchan | getchan => exact .inr ⟨rfl, rfl, rfl, _, rfl⟩
  | pwrdn | pwrup => cases hpwr : s.pwr <;> simp [startOf, hpwr, okCode]

/-- Each error class has its own status code (R231). -/
theorem cmdError_code_injective {e e' : CmdError} (h : e.code = e'.code) : e = e' := by
  revert h
  cases e <;> cases e' <;> decide

/-- An error answered in the acceptance step is the one of the first failing check (R238). -/
theorem checksOf_of_error_response {i : Instr} {s t : State} {e : CmdError} (h : exec i s = .next t)
    (hresponse : t.responses = s.responses ++ [⟨e.code, 0#32⟩]) : checksOf i s = some e := by
  cases hchecks : checksOf i s with
  | some e' =>
    rw [exec_of_check hchecks] at h
    cases h
    have hcode : e'.code = e.code := by simpa [answered] using hresponse
    rw [cmdError_code_injective hcode]
  | none =>
    rw [exec_of_no_check hchecks] at h
    cases h
    obtain ⟨-, -, hr⟩ | ⟨-, -, -, d, hr⟩ := startOf_cases (i := i) (s := s) rfl
    · simp [hr] at hresponse
    · cases e <;> simp [hr, CmdError.code] at hresponse

theorem checksOf_eq_state_iff {i : Instr} {s : State} :
    checksOf i s = some .state ↔ s.life ≠ lifeWanted i ∨ i = .rdraw ∧ s.pwr = .poweredDown := by
  rw [checksOf_eq]
  split_ifs <;> simp_all

/-- RDRAW has no operands, so the power gate never comes before an operand check (R193, R232). -/
theorem checksOf_eq_config_iff {i : Instr} {s : State} :
    checksOf i s = some .config ↔ s.life = lifeWanted i ∧ operandsRejected s i = true := by
  rw [checksOf_eq]
  split_ifs with hlife hgate
  · simp [hlife]
  · simp [hgate.1, operandsRejected]
  · simp_all
  · simp_all

/-- Settles O25. -/
theorem stateErrors : Obligations.StateErrors := by
  unfold Obligations.StateErrors
  intro i s
  exact ⟨exec_of_life_ne, fun _ hpwr => exec_of_check (checksOf_eq_state_iff.mpr (.inr ⟨rfl, hpwr⟩)),
    fun t h hresponse => checksOf_eq_state_iff.mp (checksOf_of_error_response (e := .state) h hresponse)⟩

/-- Settles O26. -/
theorem configurationErrors : Obligations.ConfigurationErrors := by
  unfold Obligations.ConfigurationErrors
  intro i s
  refine ⟨fun hlife hrejected => exec_of_check (checksOf_eq_config_iff.mpr ⟨hlife, hrejected⟩),
    fun t h hresponse => ?_⟩
  exact (checksOf_eq_config_iff.mp (checksOf_of_error_response (e := .config) h hresponse)).2

/-- The status a command's word is refused with is that of its first failing check (R231, R238). -/
theorem refusalOf_command {w : Word} {i : Instr} (h : decode w = .command i) (s : State) :
    refusalOf w s = (checksOf i s).map CmdError.code := by
  simp only [refusalOf, h, checksOf_eq]
  split_ifs <;> rfl

theorem accept_of_refusalOf {w : Word} {s : State} {code : StatusCode} (h : refusalOf w s = some code) :
    accept w s = .next (answered code 0#32 s) := by
  cases hw : decode w with
  | illegal why =>
    obtain rfl : 4#4 = code := by simpa [refusalOf, hw] using h
    exact accept_illegal hw s
  | command i =>
    rw [refusalOf_command hw] at h
    obtain ⟨e, he, rfl⟩ := Option.map_eq_some_iff.mp h
    rw [accept_command hw, exec_of_check he]

/-- A word that passes every check is a command's, and the command starts (R212, R238). -/
theorem accept_of_no_refusal {w : Word} {s : State} (h : refusalOf w s = none) :
    ∃ i, accept w s = exec i s ∧ exec i s = .next (startOf i s.beginCommand) := by
  cases hw : decode w with
  | illegal why => simp [refusalOf, hw] at h
  | command i =>
    rw [refusalOf_command hw] at h
    exact ⟨i, accept_command hw s, exec_of_no_check (Option.map_eq_none_iff.mp h)⟩

/-- The checks do not look at the port samples still to come. -/
theorem refusalOf_inputs (w : Word) (s : State) (rest : List PortSample) :
    refusalOf w { s with inputs := rest } = refusalOf w s := rfl

/-- Settles O27: a refused word is answered with its refusal, a word that passes starts its command, and a busy block's
failing event is ERR_IO. -/
theorem checksComeInOrder : Obligations.ChecksComeInOrder := by
  unfold Obligations.ChecksComeInOrder
  intro s io rest hin hrst
  refine ⟨fun hph hvalid code hrefused => ?refused, fun hph hvalid hpass => ?passes,
    fun hbusy hfail => step_failed hbusy hin hrst hfail⟩
  case refused =>
    rw [step_accept hph hin hrst hvalid]
    exact accept_of_refusalOf ((refusalOf_inputs io.cmdWord s rest).trans hrefused)
  case passes =>
    obtain ⟨i, haccept, hexec⟩ := accept_of_no_refusal ((refusalOf_inputs io.cmdWord s rest).trans hpass)
    refine ⟨_, by rw [step_accept hph hin hrst hvalid, haccept, hexec], ?_, ?_⟩
    · obtain ⟨-, -, -, -, -, -, -, -, -, -, htrace, -⟩ := acceptanceFrame _ _ _ hexec
      exact htrace
    · obtain ⟨hph, hvalid, -⟩ | ⟨hph, hvalid, hok, -⟩ := startOf_cases (i := i) (s := { s with inputs := rest }) rfl
      · exact .inl ⟨hph, hvalid⟩
      · exact .inr ⟨hph, hvalid, hok⟩

/-- Settles O28: a word that passes its checks is not answered with an error, so the word was refused. -/
theorem refusedWordChangesOnlyTheResponse : Obligations.RefusedWordChangesOnlyTheResponse := by
  unfold Obligations.RefusedWordChangesOnlyTheResponse
  intro w s t hph h hvalid hstatus
  cases hrefusal : refusalOf w s with
  | some code =>
    rw [accept_of_refusalOf hrefusal] at h
    cases h
    simp only [answered, hph]
  | none =>
    obtain ⟨i, haccept, hexec⟩ := accept_of_no_refusal hrefusal
    rw [haccept, hexec] at h
    cases h
    obtain ⟨-, hnone, -⟩ | ⟨-, -, hok, -⟩ := startOf_cases (i := i) (s := s) rfl
    · simp [hnone] at hvalid
    · exact absurd hok hstatus

end Sys2Proof.Proofs
end

