-- ==== Sys2Proof/Proofs/Reset.lean ====
section
/-! Reset (R260 to R262): the registers R20 gives a value, and the invariant, which holds after every reset. -/

namespace Sys2Proof.Proofs

open Sys2Proof.Machine Sys2Proof.Safety

/-- The state after reset is a reset of itself. -/
theorem resetBlock_reset : State.reset.resetBlock = State.reset := rfl

/-- Settles O9: a reset in any phase leaves a reset block. -/
theorem resetFromAnyState : Obligations.ResetFromAnyState := by
  unfold Obligations.ResetFromAnyState
  refine ⟨resetBlock_reset ▸ resetLike_resetBlock State.reset, fun s io rest hin hrst => ?_⟩
  exact ⟨_, step_reset hin hrst, resetLike_resetBlock _, rfl⟩

/-- Settles O49: the invariant holds after a reset of any state. -/
theorem invariantAtReset : Obligations.InvariantAtReset := by
  unfold Obligations.InvariantAtReset
  exact resetBlock_reset ▸ inv_resetBlock State.reset

end Sys2Proof.Proofs
end
